-- ==== Sys2Proof/Word.lean ====
section
/-! DEFINITION. The word types of the shproto framing core: bytes, CRC values, the 11-bit command word and the
10-bit feed key (spec/00_scope.md R14, spec/30_encoding.md R80 and R87). Core `BitVec` arithmetic is the spec's own:
`^^^` is exclusive or, `&&&` is and, `>>>` is the logical right shift, `~~~` is complement within the width. -/

namespace Sys2Proof

/-- An unsigned 8-bit value (R14). -/
abbrev Byte := BitVec 8

/-- A CRC value: an unsigned 16-bit value (R14). -/
abbrev Crc := BitVec 16

/-- One word of the host's command port: `unit` in bit 10, `op` in bits 9:8, `data` in bits 7:0 (R80). -/
abbrev CommandWord := BitVec 11

/-- DEC.FEED's sub-decode key: `DEC.state` in bits 9:8, the input byte in bits 7:0 (R87). -/
abbrev FeedKey := BitVec 10

end Sys2Proof
end

