-- ==== Sys2Proof/Syntax.lean ====
section
/-! DEFINITION. The instructions: one constructor per row of spec/opcode_table.json. The first eight are the commands
of the command port (R81); the last ten are the rows of DEC.FEED's sub-decode table (R87), which no command word
spells: DEC.FEED selects one of them by its feed key. -/

namespace Sys2Proof

/-- One row of the opcode table each. Commands whose `data` bits are ignored (R82) carry no operand. A feed row
carries the input byte where its key match leaves the byte open. -/
inductive Instr where
  /-- ENC.NEW (R141): start an empty frame with its preamble. -/
  | encNew
  /-- ENC.START imm8 (R142): append the command byte. -/
  | encStart (data : Byte)
  /-- ENC.ADD imm8 (R143): append one payload byte. -/
  | encAdd (data : Byte)
  /-- ENC.COMPLETE (R144): append the CRC and STOP, and seal the frame. -/
  | encComplete
  /-- DEC.RESET (R170): return the parser to idle. -/
  | decReset
  /-- DEC.FEED imm8 (R174): consume one input byte. -/
  | decFeed (data : Byte)
  /-- DEC.RSV2 (R187): reserved command. -/
  | decRsv2
  /-- DEC.RSV3 (R187): reserved command. -/
  | decRsv3
  /-- FEED.S.START (R176): START in state Start. -/
  | feedSStart
  /-- FEED.S.ESCAPE (R177): ESCAPE in state Start. -/
  | feedSEscape
  /-- FEED.S.STOP (R178): STOP in state Start. -/
  | feedSStop
  /-- FEED.S.OTHER (R179): any other byte in state Start. -/
  | feedSOther (data : Byte)
  /-- FEED.D.START (R180): START in state Data. -/
  | feedDStart
  /-- FEED.D.ESCAPE (R181): ESCAPE in state Data. -/
  | feedDEscape
  /-- FEED.D.STOP (R183): STOP in state Data. -/
  | feedDStop
  /-- FEED.D.OTHER (R182): any other byte in state Data. -/
  | feedDOther (data : Byte)
  /-- FEED.E.ANY (R185): any byte in state EscapedData. -/
  | feedEAny (data : Byte)
  /-- FEED.X.RSV (R186): any byte in state 0b11, which is never held. -/
  | feedXRsv (data : Byte)
  deriving DecidableEq, Repr

end Sys2Proof
end

