-- ==== Sys2Proof/Machine/Operands.lean ====
section
/-! DEFINITION. The byte constants of the wire format (R11, R70, R71) and the byte-stuffing functions on an operand
byte (spec/41_escape.md R120 to R124). -/

namespace Sys2Proof.Machine

/-- START marks the beginning of a frame's protected region (R70). -/
def startByte : Byte := 0xFE#8

/-- ESCAPE marks that the following byte is an escaped literal (R70). -/
def escapeByte : Byte := 0xFD#8

/-- STOP marks the end of a frame's protected region (R70). -/
def stopByte : Byte := 0xA5#8

/-- The sync byte, emitted literally before START; it is no control byte (R71). -/
def syncByte : Byte := 0xFF#8

/-- `is_ctrl(b)` (R121). -/
def isCtrl (b : Byte) : Bool := b == startByte || b == escapeByte || b == stopByte

/-- `cpl(b)`: the 8-bit one's complement (R122). -/
def cpl (b : Byte) : Byte := ~~~b

/-- `esc(b)`: the wire form of one logical protected byte (R123). -/
def esc (b : Byte) : List Byte := if isCtrl b then [escapeByte, cpl b] else [b]

/-- `unesc(e)`: the logical value of the byte that follows an ESCAPE, whatever that byte is (R124, R79). -/
def unesc (e : Byte) : Byte := cpl e

end Sys2Proof.Machine
end

