-- ==== Sys2Proof/WellFormed.lean ====
section
/-! DEFINITION. Which instructions the opcode table can spell. Every command takes every operand byte (R82). A feed
row whose condition is "any other byte" is tried after the rows for START, ESCAPE and STOP (R87), so no key with one
of those three bytes selects it. -/

namespace Sys2Proof

/-- The byte of an "any other byte" row is no control byte (R87, rows 4 and 8); every other instruction is well
formed at every operand. -/
def Instr.wellFormed : Instr → Bool
  | .feedSOther b => !Machine.isCtrl b
  | .feedDOther b => !Machine.isCtrl b
  | .encNew => true
  | .encStart _ => true
  | .encAdd _ => true
  | .encComplete => true
  | .decReset => true
  | .decFeed _ => true
  | .decRsv2 => true
  | .decRsv3 => true
  | .feedSStart => true
  | .feedSEscape => true
  | .feedSStop => true
  | .feedDStart => true
  | .feedDEscape => true
  | .feedDStop => true
  | .feedEAny _ => true
  | .feedXRsv _ => true

end Sys2Proof
end

