-- ==== Sys2Proof/Decode.lean ====
section
/-! DEFINITION. Decoding and encoding. There are two encoding spaces, and they do not share words: the 11-bit command
word of the host's port (spec/30_encoding.md R80 to R83) and the 10-bit feed key inside DEC.FEED (R86, R87). Then the
assembler's pseudo-commands (R85). -/

namespace Sys2Proof

/-- Why a number is no encoding at all. -/
inductive DecodeError where
  /-- The number does not fit the command port's 11 bits (R80). -/
  | wordWiderThanPort
  /-- The number does not fit the feed key's 10 bits (R87). -/
  | keyWiderThanTen
  deriving DecidableEq, Repr

/-- R80: `data = word[7:0]`, an unsigned byte with no extension (R82). -/
def wordData (w : CommandWord) : Byte := w.extractLsb' 0 8

/-- R80: `unit || op = word[10:8]`. -/
def wordOp (w : CommandWord) : BitVec 3 := w.extractLsb' 8 3

/-- The operation map (R81): each line is a row's match under the mask 0x700. The eight rows cover every word (R83),
so the last needs no test. -/
def decodeCommand (w : CommandWord) : Instr :=
  if w &&& 0x700#11 = 0x000#11 then .encNew
  else if w &&& 0x700#11 = 0x100#11 then .encStart (wordData w)
  else if w &&& 0x700#11 = 0x200#11 then .encAdd (wordData w)
  else if w &&& 0x700#11 = 0x300#11 then .encComplete
  else if w &&& 0x700#11 = 0x400#11 then .decReset
  else if w &&& 0x700#11 = 0x500#11 then .decFeed (wordData w)
  else if w &&& 0x700#11 = 0x600#11 then .decRsv2
  else .decRsv3

/-- The rows of DEC.FEED's sub-decode table, in the table's order (R87). -/
inductive FeedRow where
  | sStart | sEscape | sStop | sOther
  | dStart | dEscape | dStop | dOther
  | eAny | xRsv
  deriving DecidableEq, Repr

/-- R87: rows are tried in this order and the first with `key & mask == match` is taken. The ten rows cover all 1024
keys, so the last needs no test. -/
def feedRow (key : FeedKey) : FeedRow :=
  if key &&& 0x3FF#10 = 0x0FE#10 then .sStart
  else if key &&& 0x3FF#10 = 0x0FD#10 then .sEscape
  else if key &&& 0x3FF#10 = 0x0A5#10 then .sStop
  else if key &&& 0x300#10 = 0x000#10 then .sOther
  else if key &&& 0x3FF#10 = 0x1FE#10 then .dStart
  else if key &&& 0x3FF#10 = 0x1FD#10 then .dEscape
  else if key &&& 0x3FF#10 = 0x1A5#10 then .dStop
  else if key &&& 0x300#10 = 0x100#10 then .dOther
  else if key &&& 0x300#10 = 0x200#10 then .eAny
  else .xRsv

/-- R87: `key[7:0]` is the input byte. -/
def keyData (key : FeedKey) : Byte := key.extractLsb' 0 8

/-- R87: `key[9:8]` is the DEC.state code. -/
def keyState (key : FeedKey) : BitVec 2 := key.extractLsb' 8 2

/-- The feed-row instruction a key selects (R87). -/
def decodeKey (key : FeedKey) : Instr :=
  match feedRow key with
  | .sStart => .feedSStart
  | .sEscape => .feedSEscape
  | .sStop => .feedSStop
  | .sOther => .feedSOther (keyData key)
  | .dStart => .feedDStart
  | .dEscape => .feedDEscape
  | .dStop => .feedDStop
  | .dOther => .feedDOther (keyData key)
  | .eAny => .feedEAny (keyData key)
  | .xRsv => .feedXRsv (keyData key)

/-- The words of an instruction: a command word of the port, or a feed key inside DEC.FEED. -/
inductive Encoded where
  | command (w : CommandWord)
  | feedKey (k : FeedKey)
  deriving DecidableEq, Repr

/-- Decoding, total on both encoding spaces. -/
def decode : Encoded → Instr
  | .command w => decodeCommand w
  | .feedKey k => decodeKey k

/-- A number given as a command word: refused by name when it is wider than the port. -/
def decodeCommandNumber (w : Nat) : Except DecodeError Instr :=
  if w < 2 ^ 11 then .ok (decodeCommand (BitVec.ofNat 11 w)) else .error .wordWiderThanPort

/-- A number given as a feed key: refused by name when it is wider than ten bits. -/
def decodeKeyNumber (k : Nat) : Except DecodeError Instr :=
  if k < 2 ^ 10 then .ok (decodeKey (BitVec.ofNat 10 k)) else .error .keyWiderThanTen

/-- The host's reading of one row of spec/opcode_table.json (log entry 6): a row of 10 bits is a feed key, every
other width is a command word. -/
def decodeTableWord (nbits w : Nat) : Option Instr :=
  if nbits = 10 then (decodeKeyNumber w).toOption else (decodeCommandNumber w).toOption

/-- R85: the encoded word is `unit<<10 | op<<8 | imm8`. -/
def commandWord (unit : BitVec 1) (op : BitVec 2) (imm : Byte) : CommandWord := unit ++ op ++ imm

/-- R87: `key = DEC.state || data`. -/
def feedKeyOf (state : BitVec 2) (data : Byte) : FeedKey := state ++ data

/-- The encoder, written from R81 and R85 (ignored data bits are 0, R82) and from R87. -/
def encode : Instr → Encoded
  | .encNew => .command (commandWord 0b0#1 0b00#2 0x00#8)
  | .encStart b => .command (commandWord 0b0#1 0b01#2 b)
  | .encAdd b => .command (commandWord 0b0#1 0b10#2 b)
  | .encComplete => .command (commandWord 0b0#1 0b11#2 0x00#8)
  | .decReset => .command (commandWord 0b1#1 0b00#2 0x00#8)
  | .decFeed b => .command (commandWord 0b1#1 0b01#2 b)
  | .decRsv2 => .command (commandWord 0b1#1 0b10#2 0x00#8)
  | .decRsv3 => .command (commandWord 0b1#1 0b11#2 0x00#8)
  | .feedSStart => .feedKey (feedKeyOf 0b00#2 0xFE#8)
  | .feedSEscape => .feedKey (feedKeyOf 0b00#2 0xFD#8)
  | .feedSStop => .feedKey (feedKeyOf 0b00#2 0xA5#8)
  | .feedSOther b => .feedKey (feedKeyOf 0b00#2 b)
  | .feedDStart => .feedKey (feedKeyOf 0b01#2 0xFE#8)
  | .feedDEscape => .feedKey (feedKeyOf 0b01#2 0xFD#8)
  | .feedDStop => .feedKey (feedKeyOf 0b01#2 0xA5#8)
  | .feedDOther b => .feedKey (feedKeyOf 0b01#2 b)
  | .feedEAny b => .feedKey (feedKeyOf 0b10#2 b)
  | .feedXRsv b => .feedKey (feedKeyOf 0b11#2 b)

/-- R82: the same word with the data bits that its command ignores written as 0, as assemblers write them. -/
def withoutIgnoredBits : Encoded → Encoded
  | .command w =>
    if wordOp w = 0b001#3 ∨ wordOp w = 0b010#3 ∨ wordOp w = 0b101#3 then .command w else .command (w &&& 0x700#11)
  | .feedKey k => .feedKey k

/-- The words of `ENC.ADD` for each payload byte (R85). -/
def addWords (payload : List Byte) : List CommandWord := payload.map (commandWord 0b0#1 0b10#2)

/-- The pseudo-command `BUILD c, p0, ..., pk-1` (R85). -/
def buildWords (c : Byte) (payload : List Byte) : List CommandWord :=
  commandWord 0b0#1 0b00#2 0x00#8 :: commandWord 0b0#1 0b01#2 c :: (addWords payload ++ [commandWord 0b0#1 0b11#2 0x00#8])

/-- The pseudo-command `FEEDS b0, ..., bm-1` (R85). -/
def feedWords (bytes : List Byte) : List CommandWord := bytes.map (commandWord 0b1#1 0b01#2)

end Sys2Proof
end

