-- ==== Sys2Proof/Machine/Flags.lean ====
section
/-! DEFINITION. The CRC-16 accumulator (spec/40_crc.md) and the validity flag computed from it: `crc_zero` is what
ENC.COMPLETE writes to `ENC.valid` (R144) and what FEED.D.STOP returns as `fvalid` (R183). -/

namespace Sys2Proof.Machine

/-- The value CRC.SEED loads (R100). -/
def crcSeed : Crc := 0xFFFF#16

/-- One of the eight iterations of `crc_step` (R101). -/
def crcShift (c : Crc) : Crc :=
  if c.getLsbD 0 then (c >>> 1) ^^^ 0xA001#16 else c >>> 1

/-- `n` iterations. -/
def crcShifts : Nat → Crc → Crc
  | 0, c => c
  | n + 1, c => crcShifts n (crcShift c)

/-- `crc_step(c, b)`: fold one logical byte into the accumulator (R101). -/
def crcStep (c : Crc) (b : Byte) : Crc := crcShifts 8 (c ^^^ b.setWidth 16)

/-- `crc_fold(c, L)` (R103). -/
def crcFold : Crc → List Byte → Crc
  | c, [] => c
  | c, b :: rest => crcFold (crcStep c b) rest

/-- `crc_zero(c)`: the self-check test (R102). -/
def crcZero (c : Crc) : Bool := c == 0x0000#16

/-- `c[7:0]`, the CRC byte that travels first (R54, R144). -/
def crcLow (c : Crc) : Byte := c.extractLsb' 0 8

/-- `c[15:8]`, the CRC byte that travels second (R54, R144). -/
def crcHigh (c : Crc) : Byte := c.extractLsb' 8 8

end Sys2Proof.Machine
end

