-- ==== Sys2Proof/Config.lean ====
section
/-! DEFINITION. What an implementation of the framing core fixes, and the one value the spec leaves open.
The build parameters are plain data (R9, R10, R21: no command writes them); the free value is an opaque constant
(R41, R56; spec/93_implementation_defined.md I5 and I6). -/

namespace Sys2Proof

/-- The block's two address spaces (R50). -/
inductive Space where
  /-- ENC's output buffer: `N_ENC` bytes of wire bytes. -/
  | enc
  /-- DEC's frame buffer: `N_DEC` bytes of logical bytes. -/
  | dec
  deriving DecidableEq, Repr

/-- The build parameters of one instance (R9, R10). -/
structure Config where
  /-- `N_ENC`: ENC's capacity in wire bytes (R9). -/
  nEnc : Nat
  /-- `N_DEC`: DEC's capacity in logical bytes (R10); every value is admitted. -/
  nDec : Nat
  deriving DecidableEq, Repr

/-- R9: "`N_ENC >= 2` is required". -/
def Config.admitted (c : Config) : Bool := decide (2 ≤ c.nEnc)

/-- FREE VALUE (R41, R56, I5, I6; log entry 3). The byte a host read returns at an index `>= len`, by the number of
transactions the block has run, the space and the index: it has no body, so nothing can be proved of its value.
A second read between the same two transactions returns the same byte (R56), because none of the three arguments
has moved. -/
opaque Config.unspecifiedByte : Nat → Space → Nat → Byte

end Sys2Proof
end

