-- ==== Sys2Proof/Machine/State.lean ====
section
/-! DEFINITION. The state of one instance: ENC's and DEC's registers and buffers (spec/10_state.md), the response the
command port last returned (R84), the transactions the host has queued (R16, R80, R240), and the model's own counter
for the free value. Everything is plain data. -/

namespace Sys2Proof.Machine

/-- A buffer as (index, byte) pairs with strictly rising indices. An unlisted index has NO value (R41: a model must
not give it one), so no entry can equal what an unlisted index reads as. -/
abbrev Memory := List Host.Cell

/-- `DEC.state` (R30). -/
inductive ParserState where
  /-- Start: idle, resynchronizing (code 0b00). -/
  | start
  /-- Data: accumulating protected bytes (code 0b01). -/
  | data
  /-- EscapedData: the previous byte was ESCAPE (code 0b10). -/
  | escapedData
  /-- The code 0b11, which is never held (R35, R86); it stands here because the field has two bits. -/
  | reserved
  deriving DecidableEq, Repr

/-- The `status` field of a response (R84). -/
inductive Status where
  | ok | frame | cap | illegal
  deriving DecidableEq, Repr

/-- The response of one command (R84). -/
structure Response where
  status : Status
  fvalid : Bool
  deriving DecidableEq, Repr

/-- What the host does to the block between commands: it issues a command word (R80) or resets the block (R240). -/
inductive HostEvent where
  | command (w : CommandWord)
  | reset
  deriving DecidableEq, Repr

/-- ENC's state (R22 to R26). -/
structure EncUnit where
  /-- `ENC.buf` (R22). -/
  buf : Memory
  /-- `ENC.len` (R23, R12). -/
  len : Nat
  /-- `ENC.crc` (R24). -/
  crc : Crc
  /-- `ENC.complete` (R25). -/
  complete : Bool
  /-- `ENC.valid` (R26). -/
  valid : Bool
  deriving DecidableEq, Repr

/-- DEC's state (R30 to R33). -/
structure DecUnit where
  /-- `DEC.state` (R30). -/
  state : ParserState
  /-- `DEC.buf` (R31). -/
  buf : Memory
  /-- `DEC.len` (R32, R12). -/
  len : Nat
  /-- `DEC.crc` (R33). -/
  crc : Crc
  deriving DecidableEq, Repr

/-- One instance and its command port. -/
structure State where
  /-- The build parameters (R9, R10, R21); nothing writes them. -/
  config : Config
  /-- The ENC unit. -/
  enc : EncUnit
  /-- The DEC unit. -/
  dec : DecUnit
  /-- The response word the port returned to the last transaction; none where it returned none (R240). -/
  resp : Option Response
  /-- The host's transactions not yet run, in issue order (R60; log entry 2). -/
  pending : List HostEvent
  /-- The model's own counter of transactions run: the argument of the free value (log entry 3). -/
  epoch : Nat
  deriving DecidableEq, Repr

/-- Why the model stops with a fault. -/
inductive Fault where
  /-- DEC.FEED with `DEC.state = 0b11`: the spec's model fault (R186, R216). Raised by DEC.FEED and by the row
  FEED.X.RSV. Safe: the spec gives the case no transition, and no state a reset leads to holds the code. -/
  | feedInReservedState
  deriving DecidableEq, Repr

/-- Why the model refuses to run. -/
inductive Refusal where
  /-- An instruction without a meaning; raised by no arm (every instruction has its meaning). Safe. -/
  | notModelled (mnemonic : String)
  /-- A configuration with `N_ENC < 2` (R9, I3); raised by `step` alone. Safe: the spec refuses it. -/
  | encCapacityBelowTwo
  /-- A feed row run by itself in a DEC.state its key does not carry (R87). Raised by the feed rows' own arms and
  never by DEC.FEED, which selects the row that matches. Safe: no transaction reaches it. -/
  | feedRowNotSelected
  deriving DecidableEq, Repr

/-- What a step answers. -/
abbrev StepOutcome := Host.Outcome State Fault Refusal

/-- ENC after reset (R40): the state that ENC.NEW produces. -/
def EncUnit.reset : EncUnit :=
  { buf := [(0, 0xFF#8), (1, 0xFE#8)], len := 2, crc := 0xFFFF#16, complete := false, valid := false }

/-- DEC after reset (R40): the state that DEC.RESET produces. -/
def DecUnit.reset : DecUnit := { state := .start, buf := [], len := 0, crc := 0xFFFF#16 }

/-- The instance with build parameters `c` right after reset (R40), nothing queued. -/
def State.resetAt (c : Config) : State :=
  { config := c, enc := EncUnit.reset, dec := DecUnit.reset, resp := none, pending := [], epoch := 0 }

/-- The build parameters of `State.reset`: the values spec/95_test_vectors.md uses unless it says otherwise
(DESIGN CHOICE, log entry 1: the spec leaves both open). -/
def defaultConfig : Config := { nEnc := 64, nDec := 16 }

/-- The machine right after reset. -/
def State.reset : State := State.resetAt defaultConfig

end Sys2Proof.Machine
end

