-- ==== Sys2Proof/Machine/Ops.lean ====
section
/-! DEFINITION. The named operations every meaning is built from: one byte of a buffer, the encodings of DEC.state
and of the response, the units' internal actions (R140, R145, R171 to R173), raising an error (spec/60_exceptions.md),
and the reset event (R240). -/

namespace Sys2Proof.Machine

/-! ### Buffers (R50 to R53) -/

/-- The byte listed at an index; none where the buffer holds no defined value (R41). -/
def Memory.read : Memory → Nat → Option Byte
  | [], _ => none
  | (b, w) :: m, a => if a = b then some w else Memory.read m a

/-- Write one byte (R52), keeping the indices strictly rising. -/
def Memory.write : Memory → Nat → Byte → Memory
  | [], a, v => [(a, v)]
  | (b, w) :: m, a, v =>
    if a < b then (a, v) :: (b, w) :: m
    else if a = b then (a, v) :: m
    else (b, w) :: Memory.write m a v

/-- Write a list of bytes at consecutive indices, one byte at a time (R52). -/
def Memory.writeList : Memory → Nat → List Byte → Memory
  | m, _, [] => m
  | m, a, v :: vs => Memory.writeList (Memory.write m a v) (a + 1) vs

/-- Every listed index is at least `lo`, and the indices rise strictly. -/
def Memory.risesFrom : Nat → Memory → Bool
  | _, [] => true
  | lo, (b, _) :: m => decide (lo ≤ b) && Memory.risesFrom (b + 1) m

/-- The canonical form. -/
def Memory.wf (m : Memory) : Bool := Memory.risesFrom 0 m

/-- The bytes at indices `a .. a + n - 1`, those that have a value. -/
def Memory.contentsFrom (m : Memory) : Nat → Nat → List Byte
  | _, 0 => []
  | a, n + 1 => (Memory.read m a).toList ++ Memory.contentsFrom m (a + 1) n

/-- `buf[0 .. len-1]`. -/
def Memory.contents (m : Memory) (len : Nat) : List Byte := Memory.contentsFrom m 0 len

/-! ### Encodings of state fields -/

/-- R86. -/
def ParserState.code : ParserState → BitVec 2
  | .start => 0b00#2
  | .data => 0b01#2
  | .escapedData => 0b10#2
  | .reserved => 0b11#2

/-- R86, the other way. -/
def ParserState.ofCode (c : BitVec 2) : ParserState :=
  if c = 0b00#2 then .start else if c = 0b01#2 then .data else if c = 0b10#2 then .escapedData else .reserved

/-- R84, `status`. -/
def Status.code : Status → BitVec 2
  | .ok => 0b00#2
  | .frame => 0b01#2
  | .cap => 0b10#2
  | .illegal => 0b11#2

/-- R84: the 3-bit response word, `fvalid` in bit 2 and `status` in bits 1:0. -/
def Response.word (r : Response) : BitVec 3 := BitVec.ofBool r.fvalid ++ r.status.code

/-! ### Responses and errors -/

/-- `respond(status, fvalid)` (R15, R84). -/
def State.respond (st : Status) (fv : Bool) (s : State) : State := { s with resp := some ⟨st, fv⟩ }

/-- R173: DEC's forced recovery. The old bytes lie at indices `>= len`, so they lose their values (R41). -/
def DecUnit.capacityFail (d : DecUnit) : DecUnit :=
  { d with state := .start, buf := [], len := 0, crc := crcSeed }

/-- The errors of the block (spec/60_exceptions.md section 1). -/
inductive ErrorCause where
  /-- CapacityExceeded in ENC (R210, R211). -/
  | encCapacityExceeded
  /-- CapacityExceeded in DEC (R210, R212). -/
  | decCapacityExceeded
  /-- IllegalCommand (R215). -/
  | illegalCommand
  deriving DecidableEq, Repr

/-- Raising an error, the one shared operation. The block has no trap (R218): an error is the command's response,
with exactly the state change its rule lists and nothing latched. ENC keeps its state (R211), DEC recovers to Start
(R212), an illegal command changes nothing (R215). There is nothing to return from (R219). -/
def State.raiseError (e : ErrorCause) (s : State) : State :=
  match e with
  | .encCapacityExceeded => s.respond .cap false
  | .decCapacityExceeded => { s with dec := s.dec.capacityFail }.respond .cap false
  | .illegalCommand => s.respond .illegal false

/-! ### ENC's internal actions -/

/-- `enc_raw_append(v)` (R145): no escape, no CRC update, no capacity check. -/
def EncUnit.rawAppend (v : Byte) (e : EncUnit) : EncUnit :=
  { e with buf := Memory.write e.buf e.len v, len := e.len + 1 }

/-- What `enc_protected_append(b)` writes once its check has passed (R140): `esc(b)` in the buffer, the LOGICAL byte
in the CRC. -/
def EncUnit.appendEscaped (b : Byte) (e : EncUnit) : EncUnit :=
  { e with
    buf := Memory.writeList e.buf e.len (esc b)
    len := e.len + (esc b).length
    crc := crcStep e.crc b }

/-- `enc_protected_append(b)` (R140): none is CapacityExceeded, before any write. -/
def EncUnit.protectedAppend (nEnc : Nat) (b : Byte) (e : EncUnit) : Option EncUnit :=
  if e.len + (esc b).length > nEnc then none else some (e.appendEscaped b)

/-- ENC.NEW's effect on ENC (R141). Bytes at indices `>= 2` become undefined, so nothing else stays listed. -/
def EncUnit.newFrame (e : EncUnit) : EncUnit :=
  let started := ({ e with buf := [], len := 0 }.rawAppend syncByte).rawAppend startByte
  { started with crc := crcSeed, complete := false, valid := false }

/-- The wire bytes ENC.COMPLETE needs: both escaped CRC bytes of the snapshot and STOP (R144). -/
def EncUnit.completeNeed (e : EncUnit) : Nat :=
  (esc (crcLow e.crc)).length + (esc (crcHigh e.crc)).length + 1

/-- What ENC.COMPLETE writes once its check has passed (R144). Both CRC bytes come from `e.crc`, the snapshot. -/
def EncUnit.seal (e : EncUnit) : EncUnit :=
  let appended := ((e.appendEscaped (crcLow e.crc)).appendEscaped (crcHigh e.crc)).rawAppend stopByte
  { appended with complete := true, valid := crcZero appended.crc }

/-- ENC.COMPLETE's effect on ENC (R144): none is CapacityExceeded, checked once for all three appends. -/
def EncUnit.completeFrame (nEnc : Nat) (e : EncUnit) : Option EncUnit :=
  if e.len + e.completeNeed > nEnc then none else some e.seal

/-- An ENC command's end: OK with the unit's new state, or CapacityExceeded. -/
def State.finishEnc (s : State) (r : Option EncUnit) : State :=
  match r with
  | some e => { s with enc := e }.respond .ok false
  | none => s.raiseError .encCapacityExceeded

/-! ### DEC's internal actions -/

/-- `dec_begin_frame()` (R171): the old bytes become undefined. -/
def DecUnit.beginFrame (d : DecUnit) : DecUnit := { d with buf := [], len := 0, crc := crcSeed }

/-- `dec_logical_append(v)` (R172): none is CapacityExceeded. The stored byte and the CRC'd byte are the logical
one. -/
def DecUnit.logicalAppend (nDec : Nat) (v : Byte) (d : DecUnit) : Option DecUnit :=
  if d.len + 1 > nDec then none
  else some { d with buf := Memory.write d.buf d.len v, len := d.len + 1, crc := crcStep d.crc v }

/-- DEC.RESET's effect on DEC (R170). -/
def DecUnit.toIdle (d : DecUnit) : DecUnit := { d with state := .start, buf := [], len := 0, crc := crcSeed }

/-- An append's end in DEC: the parser state the row goes to and OK, or the recovery of R173 and CAP. -/
def State.finishDecAppend (s : State) (r : Option DecUnit) (goTo : ParserState) : State :=
  match r with
  | some d => { s with dec := { d with state := goTo } }.respond .ok false
  | none => s.raiseError .decCapacityExceeded

/-- DEC.FEED's key (R174). -/
def State.feedKey (s : State) (b : Byte) : FeedKey := feedKeyOf s.dec.state.code b

/-- A feed row runs where `DEC.state` is the one its key carries (R87); elsewhere no rule gives it an effect. -/
def State.inParserState (p : ParserState) (s : State) (next : State) : StepOutcome :=
  if s.dec.state = p then .next next else .refused .feedRowNotSelected

/-! ### Between commands -/

/-- Reset (R240): every piece of the units' state to its value in R40, the build parameters kept (R241), no response.
The queue and the model's counter are no state of the block and stay. -/
def State.resetEvent (s : State) : State :=
  { s with enc := EncUnit.reset, dec := DecUnit.reset, resp := none }

/-- A transaction begins: the counter behind the free value moves, so an undefined byte may read differently after
it (R41, R56). -/
def State.tick (s : State) : State := { s with epoch := s.epoch + 1 }

end Sys2Proof.Machine
end

