-- ==== Sys2Proof/Machine/Feed.lean ====
section
/-! DEFINITION. The meanings of the ten rows of DEC.FEED's sub-decode table (spec/43_decoder.md section 2, R176 to
R186). A row's instruction is its feed key, so it runs in the DEC.state its key carries (R87; log entry 5). -/

namespace Sys2Proof.Machine

/-- FEED.S.START (R176). -/
def execFeedSStart (s : State) : StepOutcome :=
  s.inParserState .start ({ s with dec := { s.dec.beginFrame with state := .data } }.respond .ok false)

/-- FEED.S.ESCAPE (R177): ignored. -/
def execFeedSEscape (s : State) : StepOutcome := s.inParserState .start (s.respond .ok false)

/-- FEED.S.STOP (R178): ignored. -/
def execFeedSStop (s : State) : StepOutcome := s.inParserState .start (s.respond .ok false)

/-- FEED.S.OTHER (R179): ignored, whatever the byte. -/
def execFeedSOther (_data : Byte) (s : State) : StepOutcome := s.inParserState .start (s.respond .ok false)

/-- FEED.D.START (R180): the partial frame is discarded. -/
def execFeedDStart (s : State) : StepOutcome :=
  s.inParserState .data ({ s with dec := { s.dec.beginFrame with state := .data } }.respond .ok false)

/-- FEED.D.ESCAPE (R181): nothing is appended. -/
def execFeedDEscape (s : State) : StepOutcome :=
  s.inParserState .data ({ s with dec := { s.dec with state := .escapedData } }.respond .ok false)

/-- FEED.D.STOP (R183): the frame is handed over and stays in the buffer (R190). -/
def execFeedDStop (s : State) : StepOutcome :=
  s.inParserState .data ({ s with dec := { s.dec with state := .start } }.respond .frame (crcZero s.dec.crc))

/-- FEED.D.OTHER (R182). -/
def execFeedDOther (data : Byte) (s : State) : StepOutcome :=
  s.inParserState .data (s.finishDecAppend (s.dec.logicalAppend s.config.nDec data) .data)

/-- FEED.E.ANY (R185). -/
def execFeedEAny (data : Byte) (s : State) : StepOutcome :=
  s.inParserState .escapedData (s.finishDecAppend (s.dec.logicalAppend s.config.nDec (unesc data)) .data)

/-- FEED.X.RSV (R186): the model fault. The row's key carries the state 0b11; that the fault comes in every state when
the row is run by itself is DESIGN CHOICE, log entry 5. -/
def execFeedXRsv (_data : Byte) (_s : State) : StepOutcome := .fault .feedInReservedState

end Sys2Proof.Machine
end

