-- ==== Sys2Proof/Machine/Dec.lean ====
section
/-! DEFINITION. The meanings of the DEC unit's four commands (spec/43_decoder.md). -/

namespace Sys2Proof.Machine

/-- DEC.RESET (R170). -/
def execDecReset (s : State) : StepOutcome := .next ({ s with dec := s.dec.toIdle }.respond .ok false)

/-- DEC.FEED (R174): the first row of R87 that the key matches, and that row's rule. -/
def execDecFeed (data : Byte) (s : State) : StepOutcome :=
  match feedRow (s.feedKey data) with
  | .sStart => execFeedSStart s
  | .sEscape => execFeedSEscape s
  | .sStop => execFeedSStop s
  | .sOther => execFeedSOther data s
  | .dStart => execFeedDStart s
  | .dEscape => execFeedDEscape s
  | .dStop => execFeedDStop s
  | .dOther => execFeedDOther data s
  | .eAny => execFeedEAny data s
  | .xRsv => execFeedXRsv data s

/-- DEC.RSV2 (R187, R215). -/
def execDecRsv2 (s : State) : StepOutcome := .next (s.raiseError .illegalCommand)

/-- DEC.RSV3 (R187, R215). -/
def execDecRsv3 (s : State) : StepOutcome := .next (s.raiseError .illegalCommand)

end Sys2Proof.Machine
end

