-- ==== Sys2Proof/Machine/Enc.lean ====
section
/-! DEFINITION. The meanings of the ENC unit's four commands (spec/42_encoder.md). No command order is checked
(R146). -/

namespace Sys2Proof.Machine

/-- ENC.NEW (R141). -/
def execEncNew (s : State) : StepOutcome := .next (s.finishEnc (some s.enc.newFrame))

/-- ENC.START (R142). -/
def execEncStart (data : Byte) (s : State) : StepOutcome :=
  .next (s.finishEnc (s.enc.protectedAppend s.config.nEnc data))

/-- ENC.ADD (R143): the same datapath as ENC.START. -/
def execEncAdd (data : Byte) (s : State) : StepOutcome :=
  .next (s.finishEnc (s.enc.protectedAppend s.config.nEnc data))

/-- ENC.COMPLETE (R144). -/
def execEncComplete (s : State) : StepOutcome := .next (s.finishEnc (s.enc.completeFrame s.config.nEnc))

end Sys2Proof.Machine
end

