-- ==== Sys2Proof/Machine/Dispatch.lean ====
section
/-! DEFINITION. One arm per instruction, each one call of its meaning. -/

namespace Sys2Proof.Machine

def exec (i : Instr) (s : State) : Host.Outcome State Fault Refusal :=
  match i with
  | .encNew => Sys2Proof.Machine.execEncNew s
  | .encStart data => Sys2Proof.Machine.execEncStart data s
  | .encAdd data => Sys2Proof.Machine.execEncAdd data s
  | .encComplete => Sys2Proof.Machine.execEncComplete s
  | .decReset => Sys2Proof.Machine.execDecReset s
  | .decFeed data => Sys2Proof.Machine.execDecFeed data s
  | .decRsv2 => Sys2Proof.Machine.execDecRsv2 s
  | .decRsv3 => Sys2Proof.Machine.execDecRsv3 s
  -- the rows of DEC.FEED's sub-decode table
  | .feedSStart => Sys2Proof.Machine.execFeedSStart s
  | .feedSEscape => Sys2Proof.Machine.execFeedSEscape s
  | .feedSStop => Sys2Proof.Machine.execFeedSStop s
  | .feedSOther data => Sys2Proof.Machine.execFeedSOther data s
  | .feedDStart => Sys2Proof.Machine.execFeedDStart s
  | .feedDEscape => Sys2Proof.Machine.execFeedDEscape s
  | .feedDStop => Sys2Proof.Machine.execFeedDStop s
  | .feedDOther data => Sys2Proof.Machine.execFeedDOther data s
  | .feedEAny data => Sys2Proof.Machine.execFeedEAny data s
  | .feedXRsv data => Sys2Proof.Machine.execFeedXRsv data s

end Sys2Proof.Machine
end

