-- ==== Sys2Proof/Machine/Port.lean ====
section
/-! DEFINITION. The command port (R80): one command word in, the command run to completion (R16), one response out;
the host's other event, reset (R240); and how a word of the opcode table is placed where the next step takes it. -/

namespace Sys2Proof.Machine

/-- One transaction of the command port (R80). -/
def issue (w : CommandWord) (s : State) : StepOutcome := exec (decodeCommand w) s.tick

/-- One event of the host. -/
def runEvent (ev : HostEvent) (s : State) : StepOutcome :=
  match ev with
  | .command w => issue w s
  | .reset => .next s.tick.resetEvent

/-- What a step does: the build parameters are checked first (R9, I3); then the oldest event not yet run is run
(R60). With none queued the block holds its state (R225). -/
def stepPending (s : State) : StepOutcome :=
  if s.config.admitted then
    match s.pending with
    | [] => .next s
    | ev :: rest => runEvent ev { s with pending := rest }
  else .refused .encCapacityBelowTwo

/-- A table word as the host's next transaction. A feed key (10 bits) is DEC.FEED of its byte in its DEC.state
(R87). -/
def placeTableWord (s : State) (nbits w : Nat) : State :=
  if nbits = 10 then
    let k := BitVec.ofNat 10 w
    { s with
      dec := { s.dec with state := ParserState.ofCode (keyState k) }
      pending := .command (commandWord 0b1#1 0b01#2 (keyData k)) :: s.pending }
  else { s with pending := .command (BitVec.ofNat 11 w) :: s.pending }

end Sys2Proof.Machine
end

