-- ==== Sys2Proof/Machine/ReadPort.lean ====
section
/-! DEFINITION. The host read port (R56) and what the host computes from what it reads: the outbound stream (R51),
the frame handed over (R183) and its views (R194). Reading is a function of the state: it has no side effect. -/

namespace Sys2Proof.Machine

/-- `MemRead(S:i, 1)` (R15, R56): the byte at index `i` where `i < len`, otherwise an unspecified byte. It never
traps. -/
def State.memRead (s : State) (sp : Space) (i : Nat) : Byte :=
  match sp with
  | .enc => if i < s.enc.len then (Memory.read s.enc.buf i).getD (Config.unspecifiedByte s.epoch .enc i)
            else Config.unspecifiedByte s.epoch .enc i
  | .dec => if i < s.dec.len then (Memory.read s.dec.buf i).getD (Config.unspecifiedByte s.epoch .dec i)
            else Config.unspecifiedByte s.epoch .dec i

/-- Everything the read port offers (R56). -/
inductive ReadSelect where
  | byte (sp : Space) (i : Nat)
  | encLen | encCrc | encComplete | encValid
  | decState | decLen | decCrc
  deriving DecidableEq, Repr

/-- What one read returns. -/
inductive ReadValue where
  | byte (v : Byte)
  | length (n : Nat)
  | crc (c : Crc)
  | flag (f : Bool)
  | code (c : BitVec 2)
  deriving DecidableEq, Repr

/-- One read of the port, between commands (R56, R63). -/
def State.hostRead (s : State) : ReadSelect → ReadValue
  | .byte sp i => .byte (s.memRead sp i)
  | .encLen => .length s.enc.len
  | .encCrc => .crc s.enc.crc
  | .encComplete => .flag s.enc.complete
  | .encValid => .flag s.enc.valid
  | .decState => .code s.dec.state.code
  | .decLen => .length s.dec.len
  | .decCrc => .crc s.dec.crc

/-- The outbound stream `ENC.buf[0 .. ENC.len-1]` (R51). -/
def State.outbound (s : State) : List Byte := Memory.contents s.enc.buf s.enc.len

/-- `rawBytes`: `DEC.buf[0 .. DEC.len-1]` (R31). -/
def State.rawBytes (s : State) : List Byte := Memory.contents s.dec.buf s.dec.len

/-- The frame a FRAME response hands over, `(rawBytes, valid)` (R183, R34). -/
def State.handedOver (s : State) : Option (List Byte × Bool) :=
  match s.resp with
  | some ⟨.frame, fv⟩ => some (s.rawBytes, fv)
  | _ => none

/-- R194: the command of a frame of at least three logical bytes, `DEC.buf[0]`; none for a valid frame of two. DESIGN
CHOICE, log entry 13: none for every frame of fewer than three logical bytes. -/
def frameCommand (raw : List Byte) : Option Byte := if 3 ≤ raw.length then raw.head? else none

/-- R194: its payload, `DEC.buf[1 .. len-3]`, and empty for a valid frame of two logical bytes. DESIGN CHOICE, log
entry 13: empty for every frame of fewer than three logical bytes. -/
def framePayload (raw : List Byte) : List Byte := (raw.take (raw.length - 2)).drop 1

/-- R194: its CRC bytes, `DEC.buf[len-2 .. len-1]`, from two logical bytes on (R58). DESIGN CHOICE, log entry 13: for a
frame of one or no logical byte, of which the spec says nothing, the view is the whole of `rawBytes`. -/
def frameCrcBytes (raw : List Byte) : List Byte := raw.drop (raw.length - 2)

end Sys2Proof.Machine
end

