-- ==== Sys2Proof/Safety.lean ====
section
/-! DEFINITION. What the statements are said in: runs of commands, the invariants of the two units (R27, R35), which
states differ only in one unit (R20), the logical bytes a frame has accumulated (R24, R27), and the wire form of a
frame (R72). -/

namespace Sys2Proof.Machine

/-! ### Runs -/

/-- The command words issued one after another (R60), with each command's response (R84); none if the model stops on
the way. -/
def runWords : List CommandWord → State → Option (List Response × State)
  | [], s => some ([], s)
  | w :: ws, s =>
    match issue w s with
    | .next t => (runWords ws t).map (fun r => (t.resp.toList ++ r.1, r.2))
    | .fault _ => none
    | .refused _ => none

/-- The OK response. -/
abbrev okResponse : Response := ⟨.ok, false⟩

/-- The CapacityExceeded response `(CAP, 0)`. -/
abbrev capResponse : Response := ⟨.cap, false⟩

/-- The IllegalCommand response `(ILLEGAL, 0)`. -/
abbrev illegalResponse : Response := ⟨.illegal, false⟩

/-- The FRAME response with its validity. -/
abbrev frameResponse (fv : Bool) : Response := ⟨.frame, fv⟩

/-! ### The units' invariants -/

/-- Exactly the indices below `n` hold a value (R22, R31, R41). -/
def Memory.holdsBelow (m : Memory) (n : Nat) : Prop := ∀ i, (Memory.read m i).isSome = decide (i < n)

/-- The logical bytes that a run of protected wire bytes stands for (R72, R73), none where it is no such run: a
literal START, an ESCAPE with no second byte, or a pair whose byte needed no escape (R78). A literal STOP ends a
sealed part and stands for no logical byte. `escaped` says that the byte before was ESCAPE. -/
def wireParse : (escaped : Bool) → List Byte → Option (List Byte)
  | false, [] => some []
  | true, [] => none
  | true, e :: rest => if isCtrl (unesc e) then (wireParse false rest).map (unesc e :: ·) else none
  | false, b :: rest =>
    if b = escapeByte then wireParse true rest
    else if b = startByte then none
    else if b = stopByte then wireParse false rest
    else (wireParse false rest).map (b :: ·)

/-- ENC's invariants (R27), the index range of R23, and that the buffer is canonical with a value at exactly the
indices below `ENC.len`. -/
def EncUnit.Inv (c : Config) (e : EncUnit) : Prop :=
  Memory.wf e.buf = true ∧ Memory.holdsBelow e.buf e.len ∧ 2 ≤ e.len ∧ e.len ≤ c.nEnc ∧
  Memory.read e.buf 0 = some syncByte ∧ Memory.read e.buf 1 = some startByte ∧
  (e.valid = true → e.complete = true) ∧
  (wireParse false ((Memory.contents e.buf e.len).drop 2)).map (crcFold crcSeed) = some e.crc

/-- DEC's invariants (R35), and that the buffer is canonical with a value at exactly the indices below `DEC.len`. -/
def DecUnit.Inv (c : Config) (d : DecUnit) : Prop :=
  Memory.wf d.buf = true ∧ Memory.holdsBelow d.buf d.len ∧ d.len ≤ c.nDec ∧
  d.crc = crcFold crcSeed (Memory.contents d.buf d.len) ∧ d.state ≠ .reserved

/-- The machine's invariant. -/
def State.Inv (s : State) : Prop :=
  s.config.admitted = true ∧ s.enc.Inv s.config ∧ s.dec.Inv s.config

/-! ### Frames -/

/-- Nothing but ENC's state and the response differs. -/
def State.OnlyEncChanges (s t : State) : Prop :=
  t.config = s.config ∧ t.dec = s.dec ∧ t.pending = s.pending ∧ t.epoch = s.epoch

/-- Nothing but DEC's state and the response differs. -/
def State.OnlyDecChanges (s t : State) : Prop :=
  t.config = s.config ∧ t.enc = s.enc ∧ t.pending = s.pending ∧ t.epoch = s.epoch

/-- The `unit` bit of a command word says ENC (R80). -/
def isEncWord (w : CommandWord) : Bool := !w.getLsbD 10

/-- DEC as the row `FEED.E.ANY` or `FEED.D.OTHER` leaves it when its append succeeds (R172): `v` at index `DEC.len`,
every other index as before. -/
def DecUnit.Appended (v : Byte) (d d' : DecUnit) : Prop :=
  d'.len = d.len + 1 ∧ d'.crc = crcStep d.crc v ∧
  ∀ i, Memory.read d'.buf i = if i = d.len then some v else Memory.read d.buf i

/-- ENC as a run of appends leaves it (R140, R145): the bytes `w` at the indices from `ENC.len` on, every other index
as before. -/
def EncUnit.AppendedWire (w : List Byte) (e e' : EncUnit) : Prop :=
  e'.len = e.len + w.length ∧
  ∀ i, Memory.read e'.buf i = if e.len ≤ i ∧ i < e.len + w.length then w[i - e.len]? else Memory.read e.buf i

/-! ### Frames on the wire -/

/-- The wire form of a list of protected logical bytes (R73). -/
def wireOf (logical : List Byte) : List Byte := logical.flatMap esc

/-- The two CRC bytes of the logical bytes so far, low byte first (R54, R106). -/
def crcBytesOf (logical : List Byte) : List Byte :=
  [crcLow (crcFold crcSeed logical), crcHigh (crcFold crcSeed logical)]

/-- `[command] ++ payload ++ [lo, hi]` (R76, R150). -/
def frameLogical (c : Byte) (payload : List Byte) : List Byte := (c :: payload) ++ crcBytesOf (c :: payload)

/-- The frame ENC emits (R72). -/
def frameWire (c : Byte) (payload : List Byte) : List Byte :=
  [syncByte, startByte] ++ wireOf (frameLogical c payload) ++ [stopByte]

/-- The logical bytes one command adds to those accumulated since the last ENC.NEW (R24, R27): `s` before the command,
`r` its response. -/
def accumulate (sofar : List Byte) (w : CommandWord) (s : State) (r : Option Response) : List Byte :=
  match decodeCommand w with
  | .encNew => []
  | .encStart b => if r = some okResponse then sofar ++ [b] else sofar
  | .encAdd b => if r = some okResponse then sofar ++ [b] else sofar
  | .encComplete =>
    if r = some okResponse then sofar ++ [crcLow s.enc.crc, crcHigh s.enc.crc] else sofar
  | .decReset | .decFeed _ | .decRsv2 | .decRsv3 => sofar
  | .feedSStart | .feedSEscape | .feedSStop | .feedSOther _ => sofar
  | .feedDStart | .feedDEscape | .feedDStop | .feedDOther _ => sofar
  | .feedEAny _ | .feedXRsv _ => sofar

/-- The logical bytes accumulated since the last ENC.NEW, over a run of commands that starts with `sofar`. -/
def accumulatedOver : List Byte → List CommandWord → State → List Byte
  | sofar, [], _ => sofar
  | sofar, w :: ws, s =>
    match issue w s with
    | .next t => accumulatedOver (accumulate sofar w s t.resp) ws t
    | .fault _ => sofar
    | .refused _ => sofar

end Sys2Proof.Machine
end

