-- ==== Sys2Proof/Certificates/Slice0/Obligations.lean ====
section
/-! DEFINITION. The statements about the model, from the numbered rules of spec/. -/

open Sys2Proof Sys2Proof.Machine

/-! ### Reset, configuration, the step -/

/-- The table of R40 and the two sentences after it, for every choice of the build parameters. A buffer byte that the
table calls unspecified has no value in the buffer, and a host read of it gives the free value: R41 and R56 leave the
form of both open, and these clauses are the model's choices (log entry 4, DEDUCED, and log entry 3, DESIGN CHOICE).
That the model's own `State.reset` takes the parameters 64 and 16 is log entry 1 and is not claimed here. -/
def Obligations.ResetStateValues : Prop :=
  ∀ c : Config,
    Memory.read (State.resetAt c).enc.buf 0 = some 0xFF#8 ∧
    Memory.read (State.resetAt c).enc.buf 1 = some 0xFE#8 ∧
    (∀ i, 2 ≤ i → Memory.read (State.resetAt c).enc.buf i = none ∧
      (State.resetAt c).memRead .enc i = Config.unspecifiedByte (State.resetAt c).epoch .enc i) ∧
    (State.resetAt c).enc.len = 2 ∧ (State.resetAt c).enc.crc = 0xFFFF#16 ∧
    (State.resetAt c).enc.complete = false ∧ (State.resetAt c).enc.valid = false ∧
    (State.resetAt c).dec.state = .start ∧
    (∀ i, Memory.read (State.resetAt c).dec.buf i = none ∧
      (State.resetAt c).memRead .dec i = Config.unspecifiedByte (State.resetAt c).epoch .dec i) ∧
    (State.resetAt c).dec.len = 0 ∧ (State.resetAt c).dec.crc = 0xFFFF#16 ∧
    (∀ s, ∃ t, exec .encNew s = .next t ∧ t.enc = (State.resetAt c).enc) ∧
    (∀ s, ∃ t, exec .decReset s = .next t ∧ t.dec = (State.resetAt c).dec)

/-- R240 and R241: the reset event puts both units in the state of R40, keeps the build parameters, and gives no
response. The queue behind it is the host's and goes on. -/
def Obligations.HostResetEvent : Prop :=
  ∀ (s : State) (rest : List HostEvent), s.config.admitted = true → s.pending = .reset :: rest →
    ∃ t, step s = .next t ∧ t.enc = (State.resetAt s.config).enc ∧ t.dec = (State.resetAt s.config).dec ∧
      t.config = s.config ∧ t.resp = none ∧ t.pending = rest

/-- R9: a configuration with `N_ENC < 2` is refused before anything runs, and an admitted one is never refused. -/
def Obligations.SmallEncCapacityRefused : Prop :=
  ∀ s : State,
    (s.config.nEnc < 2 → step s = .refused .encCapacityBelowTwo) ∧
    (2 ≤ s.config.nEnc → ∀ r, step s ≠ .refused r)

/-- A step runs the decoded command: with a command word queued first, a step is `exec` of its decoding on the state
with that word taken off the queue and the model's transaction counter moved (log entry 3). With nothing queued the
state is held (R225). -/
def Obligations.StepRunsDecodedCommand : Prop :=
  (∀ (s : State) (w : CommandWord) (rest : List HostEvent),
    s.config.admitted = true → s.pending = .command w :: rest →
    step s = exec (decode (.command w)) { s with pending := rest, epoch := s.epoch + 1 }) ∧
  (∀ s : State, s.config.admitted = true → s.pending = [] → step s = .next s)

/-- The model's own interface for one word of the opcode table (log entry 6): where the word decodes, the very next
step runs exactly the instruction it decodes to, and the host's queue behind it is as it was. A feed key (10 bits)
also sets DEC.state to the code it carries, by the same expression `placeTableWord` uses; no other width touches
DEC.state. -/
def Obligations.TableWordRunsNext : Prop :=
  ∀ (s : State) (nbits w : Nat) (i : Instr), s.config.admitted = true → decodeTableWord nbits w = some i →
    ∃ d : ParserState, (nbits ≠ 10 → d = s.dec.state) ∧
      (nbits = 10 → d = ParserState.ofCode (keyState (BitVec.ofNat 10 w))) ∧
      step (s.withFetchWord nbits w) =
        exec i { s with dec := { s.dec with state := d }, epoch := s.epoch + 1 }

/-- The invariant holds after reset, for every admitted configuration. -/
def Obligations.ResetMeetsInvariant : Prop :=
  ∀ c : Config, c.admitted = true → (State.resetAt c).Inv

/-- Every step keeps the invariant: both buffers canonical with a value at exactly the indices below the length, the
lengths in range (R23, R32), ENC's preamble in place and its flags consistent (R27), ENC's CRC that of the logical
bytes its wire bytes stand for, DEC's CRC that of its buffer and DEC.state never 0b11 (R35). -/
def Obligations.StepKeepsInvariant : Prop :=
  ∀ s t : State, s.Inv → step s = .next t → t.Inv

/-- From reset, whatever the build parameters and whatever the host queues, `n` steps complete in a state with the
invariant: no command word is refused, none faults, and DEC.state 0b11 is never reached (R35, R43, R216, R242). -/
def Obligations.EveryRunFromResetCompletes : Prop :=
  ∀ (c : Config) (evs : List HostEvent) (n : Nat), c.admitted = true →
    ∃ t, Host.Core.run Sys2Proof.core n { State.resetAt c with pending := evs } = .next t ∧ State.Inv t

/-- R60: steps take the queued command words in issue order: as many steps as words end where issuing the words one
after another ends. -/
def Obligations.StepsIssueInOrder : Prop :=
  ∀ (ws : List CommandWord) (rest : List HostEvent) (s t : State) (rs : List Response),
    s.config.admitted = true → runWords ws { s with pending := rest } = some (rs, t) →
    Host.Core.run Sys2Proof.core ws.length { s with pending := ws.map .command ++ rest } = .next t

/-- R191, R225: with no command, any number of steps holds the state: a partial frame stays open. -/
def Obligations.IdleHoldsState : Prop :=
  ∀ (s : State) (n : Nat), s.config.admitted = true → s.pending = [] →
    Host.Core.run Sys2Proof.core n s = .next s

/-! ### Encoding -/

/-- Decoding the encoding of a well-formed instruction gives it back, with every operand. -/
def Obligations.DecodeEncodeRoundTrip : Prop :=
  ∀ i : Instr, i.wellFormed = true → decode (encode i) = i

/-- Every word and every key decodes to a well-formed instruction, whose encoding is the word with its ignored data
bits written as 0 (R82). -/
def Obligations.EncodeDecodeRoundTrip : Prop :=
  ∀ e : Encoded, (decode e).wellFormed = true ∧ encode (decode e) = withoutIgnoredBits e

/-- R81 and R82: the operation map for every data byte, the words assemblers write, and that every word is such a
word. -/
def Obligations.OperationMap : Prop :=
  (∀ d : Byte,
    decode (.command (0b0#1 ++ 0b00#2 ++ d)) = .encNew ∧
    decode (.command (0b0#1 ++ 0b01#2 ++ d)) = .encStart d ∧
    decode (.command (0b0#1 ++ 0b10#2 ++ d)) = .encAdd d ∧
    decode (.command (0b0#1 ++ 0b11#2 ++ d)) = .encComplete ∧
    decode (.command (0b1#1 ++ 0b00#2 ++ d)) = .decReset ∧
    decode (.command (0b1#1 ++ 0b01#2 ++ d)) = .decFeed d ∧
    decode (.command (0b1#1 ++ 0b10#2 ++ d)) = .decRsv2 ∧
    decode (.command (0b1#1 ++ 0b11#2 ++ d)) = .decRsv3) ∧
  encode .encNew = .command 0x000#11 ∧ encode .encComplete = .command 0x300#11 ∧
  encode .decReset = .command 0x400#11 ∧ encode .decRsv2 = .command 0x600#11 ∧
  encode .decRsv3 = .command 0x700#11 ∧
  ∀ w : CommandWord, ∃ (unit : BitVec 1) (op : BitVec 2) (d : Byte), w = unit ++ op ++ d

/-- R86 and R87: the row that each DEC.state and input byte selects, and that every key is such a pair. -/
def Obligations.FeedKeyTable : Prop :=
  ParserState.start.code = 0b00#2 ∧ ParserState.data.code = 0b01#2 ∧ ParserState.escapedData.code = 0b10#2 ∧
  ParserState.reserved.code = 0b11#2 ∧
  (∀ b : Byte,
    decode (.feedKey (0b00#2 ++ b)) =
      (if b = 0xFE#8 then .feedSStart else if b = 0xFD#8 then .feedSEscape else if b = 0xA5#8 then .feedSStop
       else .feedSOther b) ∧
    decode (.feedKey (0b01#2 ++ b)) =
      (if b = 0xFE#8 then .feedDStart else if b = 0xFD#8 then .feedDEscape else if b = 0xA5#8 then .feedDStop
       else .feedDOther b) ∧
    decode (.feedKey (0b10#2 ++ b)) = .feedEAny b ∧
    decode (.feedKey (0b11#2 ++ b)) = .feedXRsv b) ∧
  ∀ k : FeedKey, ∃ (p : ParserState) (b : Byte), k = p.code ++ b

/-- A few words written out from the spec's encodings (spec/95_test_vectors.md P1, P2, EV-19, DV-22; R87). -/
def Obligations.SpecWordsDecode : Prop :=
  decode (.command 0x000#11) = .encNew ∧ decode (.command 0x0FF#11) = .encNew ∧
  decode (.command 0x103#11) = .encStart 0x03#8 ∧ decode (.command 0x299#11) = .encAdd 0x99#8 ∧
  decode (.command 0x300#11) = .encComplete ∧ decode (.command 0x400#11) = .decReset ∧
  decode (.command 0x5FE#11) = .decFeed 0xFE#8 ∧ decode (.command 0x600#11) = .decRsv2 ∧
  decode (.command 0x7FF#11) = .decRsv3 ∧
  decode (.feedKey 0x0FE#10) = .feedSStart ∧ decode (.feedKey 0x1A5#10) = .feedDStop ∧
  decode (.feedKey 0x15A#10) = .feedDOther 0x5A#8 ∧ decode (.feedKey 0x2FE#10) = .feedEAny 0xFE#8

/-! ### CRC and escaping -/

/-- R104: a CRC value's own low byte and then its high byte bring the accumulator to zero, and so every list of logical
bytes followed by its CRC bytes folds to zero. -/
def Obligations.CrcSelfCheck : Prop :=
  (∀ c : Crc, crcStep (crcStep c (c.extractLsb' 0 8)) (c.extractLsb' 8 8) = 0x0000#16) ∧
  (∀ l : List Byte, crcFold 0xFFFF#16
    (l ++ [(crcFold 0xFFFF#16 l).extractLsb' 0 8, (crcFold 0xFFFF#16 l).extractLsb' 8 8]) = 0x0000#16)

/-- R101, its corner case: no byte merges two CRC states. -/
def Obligations.CrcStepBijective : Prop := ∀ b : Byte, Function.Bijective (fun c => crcStep c b)

/-- R107: the table identity, with the table's three printed entries. -/
def Obligations.CrcTableIdentity : Prop :=
  (∀ (c : Crc) (b : Byte),
    crcStep c b = (c >>> 8) ^^^ crcStep 0x0000#16 ((c ^^^ b.setWidth 16).extractLsb' 0 8)) ∧
  crcStep 0x0000#16 0x01#8 = 0xC0C1#16 ∧ crcStep 0x0000#16 0x80#8 = 0xA001#16 ∧
  crcStep 0x0000#16 0xFF#8 = 0x4040#16

/-- R100 and R102: the seed and the self-check test, with the corner cases. -/
def Obligations.CrcZeroCorners : Prop :=
  crcSeed = 0xFFFF#16 ∧ (∀ c : Crc, crcZero c = decide (c = 0x0000#16)) ∧ crcZero crcSeed = false ∧
  (∀ b : Byte, crcZero (crcStep crcSeed b) = false) ∧
  crcFold crcSeed [0xFF#8, 0xFF#8] = 0x0000#16 ∧ crcZero 0x2AC1#16 = false

/-- R120 to R124: the control set, the complement, `esc` and `unesc`, for every byte. -/
def Obligations.EscapeFunctions : Prop :=
  (∀ b : Byte, isCtrl b = decide (b = 0xFE#8 ∨ b = 0xFD#8 ∨ b = 0xA5#8)) ∧
  (∀ b : Byte, (cpl b).toNat = 255 - b.toNat ∧ cpl (cpl b) = b) ∧
  esc 0xFE#8 = [0xFD#8, 0x01#8] ∧ esc 0xFD#8 = [0xFD#8, 0x02#8] ∧ esc 0xA5#8 = [0xFD#8, 0x5A#8] ∧
  (∀ b : Byte, b ≠ 0xFE#8 → b ≠ 0xFD#8 → b ≠ 0xA5#8 → esc b = [b]) ∧
  (∀ e : Byte, (unesc e).toNat = 255 - e.toNat)

/-- R125: feeding `esc(b)` to DEC in state Data with room appends exactly `b` and ends in Data. -/
def Obligations.EscapeRoundTrip : Prop :=
  ∀ (s : State) (b : Byte), s.dec.state = .data → s.dec.len < s.config.nDec →
    ∃ t, runWords (feedWords (esc b)) s = some (List.replicate (esc b).length okResponse, t) ∧
      t.dec.state = .data ∧ s.dec.Appended b t.dec ∧ t.enc = s.enc ∧ t.config = s.config

/-! ### ENC -/

/-- R141: ENC.NEW: its words, and its effect in every state. That no other byte keeps an entry in the buffer is how the
model writes "become undefined" (R41, log entry 4). -/
def Obligations.EncNewEffect : Prop :=
  (∀ w : CommandWord, w &&& 0x700#11 = 0x000#11 → decode (.command w) = .encNew) ∧
  ∀ s : State, exec .encNew s = .next { s with
    enc := { buf := [(0, 0xFF#8), (1, 0xFE#8)], len := 2, crc := 0xFFFF#16, complete := false, valid := false }
    resp := some ⟨.ok, false⟩ }

/-- R140, R142, R143 and R211: the words of ENC.START and ENC.ADD; both append `esc(data)` at the length and fold the LOGICAL byte where
that fits, and otherwise respond CAP and change nothing. -/
def Obligations.EncAppendEffect : Prop :=
  (∀ w : CommandWord,
    (w &&& 0x700#11 = 0x100#11 → decode (.command w) = .encStart (w.extractLsb' 0 8)) ∧
    (w &&& 0x700#11 = 0x200#11 → decode (.command w) = .encAdd (w.extractLsb' 0 8))) ∧
  ∀ (s : State) (b : Byte) (i : Instr), i = .encStart b ∨ i = .encAdd b →
    (s.enc.len + (esc b).length ≤ s.config.nEnc →
      ∃ t, exec i s = .next t ∧ s.enc.AppendedWire (esc b) t.enc ∧ t.enc.crc = crcStep s.enc.crc b ∧
        t.enc.complete = s.enc.complete ∧ t.enc.valid = s.enc.valid ∧
        t.resp = some ⟨.ok, false⟩ ∧ s.OnlyEncChanges t) ∧
    (s.config.nEnc < s.enc.len + (esc b).length →
      exec i s = .next { s with resp := some ⟨.cap, false⟩ })

/-- R144: ENC.COMPLETE: its words and its effect. Both CRC bytes are cut from the CRC as it was before the
command. That the CRC ends at zero and `valid` is always 1 is what the spec derives from R104 ("`ENC.valid` is always 1
after a successful ENC.COMPLETE."). -/
def Obligations.EncCompleteEffect : Prop :=
  (∀ w : CommandWord, w &&& 0x700#11 = 0x300#11 → decode (.command w) = .encComplete) ∧
  ∀ s : State,
    (s.enc.len + (esc (s.enc.crc.extractLsb' 0 8)).length + (esc (s.enc.crc.extractLsb' 8 8)).length + 1
        ≤ s.config.nEnc →
      ∃ t, exec .encComplete s = .next t ∧
        s.enc.AppendedWire (esc (s.enc.crc.extractLsb' 0 8) ++ esc (s.enc.crc.extractLsb' 8 8) ++ [0xA5#8]) t.enc ∧
        t.enc.crc = 0x0000#16 ∧ t.enc.complete = true ∧ t.enc.valid = true ∧
        t.resp = some ⟨.ok, false⟩ ∧ s.OnlyEncChanges t) ∧
    (s.config.nEnc <
        s.enc.len + (esc (s.enc.crc.extractLsb' 0 8)).length + (esc (s.enc.crc.extractLsb' 8 8)).length + 1 →
      exec .encComplete s = .next { s with resp := some ⟨.cap, false⟩ })

/-- R147: a second ENC.COMPLETE after one that succeeded appends `00 00 A5`, and CRC and flags stay. -/
def Obligations.SecondCompleteAppends : Prop :=
  ∀ s t : State, exec .encComplete s = .next t → t.resp = some ⟨.ok, false⟩ → t.enc.len + 3 ≤ t.config.nEnc →
    ∃ u, exec .encComplete t = .next u ∧ t.enc.AppendedWire [0x00#8, 0x00#8, 0xA5#8] u.enc ∧
      u.enc.crc = 0x0000#16 ∧ u.enc.complete = true ∧ u.enc.valid = true ∧
      u.resp = some ⟨.ok, false⟩ ∧ t.OnlyEncChanges u

/-- R210: CapacityExceeded is the response in exactly the listed cases, where DEC's length is in its range (R32). -/
def Obligations.CapacityExceededExactly : Prop :=
  ∀ (i : Instr) (s t : State), exec i s = .next t → s.dec.len ≤ s.config.nDec →
    (t.resp = some ⟨.cap, false⟩ ↔
      (∃ b, (i = .encStart b ∨ i = .encAdd b) ∧ s.config.nEnc < s.enc.len + (esc b).length) ∨
      (i = .encComplete ∧ s.config.nEnc < s.enc.len + (esc (s.enc.crc.extractLsb' 0 8)).length +
        (esc (s.enc.crc.extractLsb' 8 8)).length + 1) ∨
      (∃ b, (i = .feedDOther b ∨ (i = .decFeed b ∧ s.dec.state = .data ∧ isCtrl b = false) ∨
          i = .feedEAny b ∨ (i = .decFeed b ∧ s.dec.state = .escapedData)) ∧ s.dec.len = s.config.nDec))

/-- R211: an ENC command that responds CAP changes nothing else, in ENC or anywhere. -/
def Obligations.EncCapacityChangesNothing : Prop :=
  ∀ (w : CommandWord) (s t : State), isEncWord w = true → exec (decode (.command w)) s = .next t →
    t.resp = some ⟨.cap, false⟩ → t = { s with resp := some ⟨.cap, false⟩ }

/-- R148: CapacityExceeded in ENC is not sticky. With one free byte an escape pair fails, and a one-byte append after
it succeeds, with a CRC that never saw the failed byte. -/
def Obligations.EncCapacityNotSticky : Prop :=
  ∀ (s : State) (b c : Byte), s.enc.len + 1 = s.config.nEnc → isCtrl b = true → isCtrl c = false →
    ∃ t, runWords [0b0#1 ++ 0b01#2 ++ b, 0b0#1 ++ 0b01#2 ++ c] s = some ([⟨.cap, false⟩, ⟨.ok, false⟩], t) ∧
      s.enc.AppendedWire [c] t.enc ∧ t.enc.crc = crcStep s.enc.crc c ∧
      t.enc.complete = s.enc.complete ∧ t.enc.valid = s.enc.valid ∧ t.dec = s.dec ∧ t.config = s.config

/-- R25, R26, R146, R252: only ENC.NEW and a successful ENC.COMPLETE write `complete` and `valid`, whatever ran
before. -/
def Obligations.FlagsWrittenByNewAndComplete : Prop :=
  ∀ (i : Instr) (s t : State), exec i s = .next t →
    (i = .encNew → t.enc.complete = false ∧ t.enc.valid = false) ∧
    (i = .encComplete → t.resp = some ⟨.ok, false⟩ →
      t.enc.complete = true ∧ t.enc.valid = decide (t.enc.crc = 0x0000#16)) ∧
    (i ≠ .encNew → ¬ (i = .encComplete ∧ t.resp = some ⟨.ok, false⟩) →
      t.enc.complete = s.enc.complete ∧ t.enc.valid = s.enc.valid)

/-- R24, R27 (d): over any run of commands, `ENC.crc` is the CRC of the logical bytes accumulated since the last
ENC.NEW: each successful ENC.START's and ENC.ADD's byte, and each successful ENC.COMPLETE's two CRC bytes. -/
def Obligations.EncCrcIsRunningCrc : Prop :=
  ∀ (ws : List CommandWord) (s t : State) (rs : List Response) (sofar : List Byte),
    s.enc.crc = crcFold 0xFFFF#16 sofar → runWords ws s = some (rs, t) →
    t.enc.crc = crcFold 0xFFFF#16 (accumulatedOver sofar ws s)

/-! ### Frames that ENC builds -/

/-- R76: the wire length of a frame and its bounds. -/
def Obligations.WireLength : Prop :=
  ∀ (c : Byte) (p : List Byte),
    (frameWire c p).length = 3 + ((frameLogical c p).map (fun b => (esc b).length)).sum ∧
    3 + (frameLogical c p).length ≤ (frameWire c p).length ∧
    (frameWire c p).length ≤ 3 + 2 * (frameLogical c p).length ∧
    (p = [] → 6 ≤ (frameWire c p).length ∧ (frameWire c p).length ≤ 9)

/-- R78: where the control bytes stand in a frame. -/
def Obligations.ControlBytesOnWire : Prop :=
  ∀ (c : Byte) (p : List Byte) (i : Nat),
    ((frameWire c p)[i]? = some 0xFE#8 ↔ i = 1) ∧
    ((frameWire c p)[i]? = some 0xA5#8 ↔ i + 1 = (frameWire c p).length) ∧
    ((frameWire c p)[i]? = some 0xFD#8 →
      (frameWire c p)[i + 1]? = some 0x01#8 ∨ (frameWire c p)[i + 1]? = some 0x02#8 ∨
      (frameWire c p)[i + 1]? = some 0x5A#8)

/-- R72, and R149 and the first half of R150, which the spec derives from R104, R140, R141 and R144: BUILD of a frame that fits, from every state: every response is OK, the CRC is
zero, both flags are set, and the buffer is exactly the wire sequence of R72. -/
def Obligations.BuildEmitsFrame : Prop :=
  ∀ (s : State) (c : Byte) (p : List Byte), (frameWire c p).length ≤ s.config.nEnc →
    ∃ t, runWords (buildWords c p) s = some (List.replicate (p.length + 3) ⟨.ok, false⟩, t) ∧
      t.enc.crc = 0x0000#16 ∧ t.enc.complete = true ∧ t.enc.valid = true ∧
      t.outbound = frameWire c p ∧ t.enc.len = (frameWire c p).length ∧
      t.dec = s.dec ∧ t.config = s.config

/-- R150: every response of a BUILD is OK exactly if the frame fits in `N_ENC` wire bytes; and if not, the first
command whose running total exceeds `N_ENC` returns CAP, those before it OK. The running total after the `k` commands
ENC.NEW, ENC.START and so on is 2 plus the escaped bytes so far; ENC.COMPLETE's is the whole frame. -/
def Obligations.BuildFitsExactly : Prop :=
  ∀ (s t : State) (c : Byte) (p : List Byte) (rs : List Response), 2 ≤ s.config.nEnc →
    runWords (buildWords c p) s = some (rs, t) →
    ((∀ r ∈ rs, r = ⟨.ok, false⟩) ↔
      3 + ((frameLogical c p).map (fun b => (esc b).length)).sum ≤ s.config.nEnc) ∧
    (∀ k, k ≤ p.length →
      2 + (wireOf ((c :: p).take k)).length ≤ s.config.nEnc →
      s.config.nEnc < 2 + (wireOf ((c :: p).take (k + 1))).length →
      rs.take (k + 2) = List.replicate (k + 1) ⟨.ok, false⟩ ++ [⟨.cap, false⟩]) ∧
    (2 + (wireOf (c :: p)).length ≤ s.config.nEnc → s.config.nEnc < (frameWire c p).length →
      rs = List.replicate (p.length + 2) ⟨.ok, false⟩ ++ [⟨.cap, false⟩])

/-- R151: the bytes of a completed BUILD, fed to any DEC with room for the logical bytes and in any of its states, give
FRAME exactly once, at the final STOP, valid, with the logical bytes in `DEC.buf`. The sync byte's own response is CAP
exactly where it is appended to a full buffer, and OK otherwise. -/
def Obligations.BuiltFrameIsAccepted : Prop :=
  ∀ (s t d : State) (c : Byte) (p : List Byte) (rs : List Response),
    runWords (buildWords c p) s = some (rs, t) → (∀ r ∈ rs, r = ⟨.ok, false⟩) →
    d.dec.state ≠ .reserved → (frameLogical c p).length ≤ d.config.nDec →
    ∃ u, runWords (feedWords t.outbound) d =
        some ((if d.dec.state ≠ .start ∧ d.config.nDec ≤ d.dec.len then ⟨.cap, false⟩ else ⟨.ok, false⟩) ::
          (List.replicate (t.outbound.length - 2) ⟨.ok, false⟩ ++ [⟨.frame, true⟩]), u) ∧
      u.rawBytes = frameLogical c p ∧ u.dec.state = .start

/-! ### DEC -/

/-- R170: DEC.RESET: its words, and its effect in every state. That the buffer is empty is how the model writes that no
byte of it has a defined value (R41, log entry 4). -/
def Obligations.DecResetEffect : Prop :=
  (∀ w : CommandWord, w &&& 0x700#11 = 0x400#11 → decode (.command w) = .decReset) ∧
  ∀ s : State, exec .decReset s = .next { s with
    dec := { state := .start, buf := [], len := 0, crc := 0xFFFF#16 }
    resp := some ⟨.ok, false⟩ }

/-- R176 to R179: the keys and the effects of the rows of state Start. Only START does anything;
the emptied buffer is how the model writes that the old bytes become undefined (R171, R41, log entry 4). -/
def Obligations.FeedRowsInStart : Prop :=
  (decode (.feedKey 0x0FE#10) = .feedSStart ∧ decode (.feedKey 0x0FD#10) = .feedSEscape ∧
    decode (.feedKey 0x0A5#10) = .feedSStop ∧
    ∀ b : Byte, b ≠ 0xFE#8 → b ≠ 0xFD#8 → b ≠ 0xA5#8 → decode (.feedKey (0b00#2 ++ b)) = .feedSOther b) ∧
  ∀ s : State, s.dec.state = .start →
    exec .feedSStart s = .next { s with
      dec := { state := .data, buf := [], len := 0, crc := 0xFFFF#16 }, resp := some ⟨.ok, false⟩ } ∧
    exec .feedSEscape s = .next { s with resp := some ⟨.ok, false⟩ } ∧
    exec .feedSStop s = .next { s with resp := some ⟨.ok, false⟩ } ∧
    ∀ b : Byte, exec (.feedSOther b) s = .next { s with resp := some ⟨.ok, false⟩ }

/-- R180, R181 and R183: the keys and the effects of the rows of state Data for the three control bytes. A STOP hands
over the buffer as it is with the validity of its CRC. The emptied buffer after START is how the model writes that the
old bytes become undefined (R171, R41, log entry 4). -/
def Obligations.FeedControlRowsInData : Prop :=
  (decode (.feedKey 0x1FE#10) = .feedDStart ∧ decode (.feedKey 0x1FD#10) = .feedDEscape ∧
    decode (.feedKey 0x1A5#10) = .feedDStop) ∧
  ∀ s : State, s.dec.state = .data →
    exec .feedDStart s = .next { s with
      dec := { state := .data, buf := [], len := 0, crc := 0xFFFF#16 }, resp := some ⟨.ok, false⟩ } ∧
    exec .feedDEscape s = .next { s with
      dec := { s.dec with state := .escapedData }, resp := some ⟨.ok, false⟩ } ∧
    exec .feedDStop s = .next { s with
      dec := { s.dec with state := .start }, resp := some ⟨.frame, decide (s.dec.crc = 0x0000#16)⟩ }

/-- R172, R173, R182 and R185: the keys and the effects of the two appending rows. `FEED.D.OTHER` appends the byte, `FEED.E.ANY` its complement;
with room the append lands at `DEC.len`, the CRC folds the stored byte and the state is Data; with none left the frame
is discarded and the response is CAP; the emptied buffer is how the model writes R41 (log entry 4). -/
def Obligations.FeedAppendingRows : Prop :=
  (∀ b : Byte, (b ≠ 0xFE#8 → b ≠ 0xFD#8 → b ≠ 0xA5#8 → decode (.feedKey (0b01#2 ++ b)) = .feedDOther b) ∧
    decode (.feedKey (0b10#2 ++ b)) = .feedEAny b) ∧
  ∀ (s : State) (b v : Byte) (i : Instr),
    (s.dec.state = .data ∧ i = .feedDOther b ∧ v = b) ∨ (s.dec.state = .escapedData ∧ i = .feedEAny b ∧ v = ~~~b) →
    (s.dec.len + 1 ≤ s.config.nDec →
      ∃ t, exec i s = .next t ∧ s.dec.Appended v t.dec ∧ t.dec.state = .data ∧ t.resp = some ⟨.ok, false⟩ ∧
        s.OnlyDecChanges t) ∧
    (s.config.nDec < s.dec.len + 1 →
      exec i s = .next { s with
        dec := { state := .start, buf := [], len := 0, crc := 0xFFFF#16 }, resp := some ⟨.cap, false⟩ })

/-- The model's choice (log entry 5): each of the nine feed rows of the states Start, Data and EscapedData, run by
itself in a DEC.state its key does not carry, is refused by name. The tenth row, FEED.X.RSV, faults in every state
(`Obligations.ReservedStateFaults`). -/
def Obligations.FeedRowNeedsItsState : Prop :=
  ∀ (s : State) (b : Byte),
    (s.dec.state ≠ .start → ∀ i ∈ [Instr.feedSStart, .feedSEscape, .feedSStop, .feedSOther b],
      exec i s = .refused .feedRowNotSelected) ∧
    (s.dec.state ≠ .data → ∀ i ∈ [Instr.feedDStart, .feedDEscape, .feedDStop, .feedDOther b],
      exec i s = .refused .feedRowNotSelected) ∧
    (s.dec.state ≠ .escapedData → exec (.feedEAny b) s = .refused .feedRowNotSelected)

/-- R174: DEC.FEED: its words, and that it runs the row its key selects. -/
def Obligations.DecFeedRunsSelectedRow : Prop :=
  (∀ w : CommandWord, w &&& 0x700#11 = 0x500#11 → decode (.command w) = .decFeed (w.extractLsb' 0 8)) ∧
  ∀ (s : State) (b : Byte), exec (.decFeed b) s = exec (decode (.feedKey (s.dec.state.code ++ b))) s

/-- DEC.FEED completes in each of the three states, and what it does there: the source's state table (R174, R176 to
R185), byte by byte, with room for an append (R172) and without (R173). An emptied buffer is how the model writes R41
(log entry 4). -/
def Obligations.DecFeedStateTable : Prop :=
  ∀ (s : State) (b : Byte), s.dec.state ≠ .reserved →
    ∃ t, exec (.decFeed b) s = .next t ∧ s.OnlyDecChanges t ∧
      (s.dec.state = .start → b = 0xFE#8 →
        t.dec = { state := .data, buf := [], len := 0, crc := 0xFFFF#16 } ∧ t.resp = some ⟨.ok, false⟩) ∧
      (s.dec.state = .start → b ≠ 0xFE#8 → t.dec = s.dec ∧ t.resp = some ⟨.ok, false⟩) ∧
      (s.dec.state = .data → b = 0xFE#8 →
        t.dec = { state := .data, buf := [], len := 0, crc := 0xFFFF#16 } ∧ t.resp = some ⟨.ok, false⟩) ∧
      (s.dec.state = .data → b = 0xFD#8 → t.dec = { s.dec with state := .escapedData } ∧ t.resp = some ⟨.ok, false⟩) ∧
      (s.dec.state = .data → b = 0xA5#8 →
        t.dec = { s.dec with state := .start } ∧ t.resp = some ⟨.frame, decide (s.dec.crc = 0x0000#16)⟩) ∧
      (s.dec.state = .data → isCtrl b = false → s.dec.len + 1 ≤ s.config.nDec →
        s.dec.Appended b t.dec ∧ t.dec.state = .data ∧ t.resp = some ⟨.ok, false⟩) ∧
      (s.dec.state = .escapedData → s.dec.len + 1 ≤ s.config.nDec →
        s.dec.Appended (~~~b) t.dec ∧ t.dec.state = .data ∧ t.resp = some ⟨.ok, false⟩) ∧
      ((s.dec.state = .data ∧ isCtrl b = false) ∨ s.dec.state = .escapedData → s.config.nDec < s.dec.len + 1 →
        t.dec = { state := .start, buf := [], len := 0, crc := 0xFFFF#16 } ∧ t.resp = some ⟨.cap, false⟩)

/-- R186 and R216: DEC.FEED stops with the model fault in state 0b11, and no command faults elsewhere. That the row
FEED.X.RSV, run by itself, faults in EVERY state is the model's choice (log entry 5): R186 speaks of state 0b11. -/
def Obligations.ReservedStateFaults : Prop :=
  (∀ (b : Byte) (s : State), decode (.feedKey (0b11#2 ++ b)) = .feedXRsv b ∧
    exec (.feedXRsv b) s = .fault .feedInReservedState) ∧
  (∀ (b : Byte) (s : State), s.dec.state = .reserved → exec (.decFeed b) s = .fault .feedInReservedState) ∧
  (∀ (w : CommandWord) (s : State) (f : Fault), exec (decode (.command w)) s = .fault f →
    s.dec.state = .reserved ∧ ∃ b, decode (.command w) = .decFeed b)

/-- R187 and R215: the words of the reserved commands, which respond ILLEGAL and change nothing, in every state. -/
def Obligations.ReservedCommandsIllegal : Prop :=
  (∀ w : CommandWord, (w &&& 0x700#11 = 0x600#11 → decode (.command w) = .decRsv2) ∧
    (w &&& 0x700#11 = 0x700#11 → decode (.command w) = .decRsv3)) ∧
  ∀ s : State,
    exec .decRsv2 s = .next { s with resp := some ⟨.illegal, false⟩ } ∧
    exec .decRsv3 s = .next { s with resp := some ⟨.illegal, false⟩ }

/-- R184: DEC.state becomes Data only by START in state Start, which begins a fresh frame, or by the byte after an
ESCAPE. -/
def Obligations.DataEnteredOnlyBy : Prop :=
  ∀ (i : Instr) (s t : State), exec i s = .next t → t.dec.state = .data → s.dec.state ≠ .data →
    (s.dec.state = .start ∧ (i = .feedSStart ∨ i = .decFeed 0xFE#8) ∧ t.dec.len = 0 ∧ t.dec.crc = 0xFFFF#16) ∨
    (s.dec.state = .escapedData ∧ ∃ b, i = .feedEAny b ∨ i = .decFeed b)

/-- R189 and R214: a command returns FRAME exactly if it is DEC.FEED of STOP in state Data, whatever the CRC, and the
frame handed over is the buffer as it was with the validity of its CRC. -/
def Obligations.FrameExactlyAtStop : Prop :=
  ∀ (w : CommandWord) (s t : State), exec (decode (.command w)) s = .next t →
    (t.handedOver ≠ none ↔ w = 0x5A5#11 ∧ s.dec.state = .data) ∧
    (w = 0x5A5#11 → s.dec.state = .data →
      t.handedOver = some (s.rawBytes, decide (s.dec.crc = 0x0000#16)))

/-- R190: in state Start no run of bytes without a START changes anything in DEC, so the frame stays readable. -/
def Obligations.FrameRetained : Prop :=
  ∀ (s : State) (bytes : List Byte), s.dec.state = .start → 0xFE#8 ∉ bytes →
    ∃ t, runWords (feedWords bytes) s = some (List.replicate bytes.length ⟨.ok, false⟩, t) ∧
      t.dec = s.dec ∧ t.enc = s.enc ∧ t.config = s.config

/-- R41, R250: once START has been fed in state Start, every read of `DEC.buf` gives the free value: the frame that
was there can no longer be relied on. R41 allows a fault or any value; that the read gives `Config.unspecifiedByte` at
the transaction counter is the model's choice (log entry 3), and so is that the emptied buffer lists no byte (log
entry 4). -/
def Obligations.ReadoutHazard : Prop :=
  ∀ s : State, s.dec.state = .start →
    ∃ t, exec (.decFeed 0xFE#8) s = .next t ∧ ∀ i, t.memRead .dec i = Config.unspecifiedByte t.epoch .dec i

/-- R193: the capacity boundary for a frame whose protected region holds the logical bytes `l`. With `N_DEC` at least
their number the frame is handed over and nothing responds CAP; with one fewer the last logical byte responds CAP, DEC
is back in Start, and the STOP after it is ignored. The emptied buffer is how the model writes R41 (log entry 4). -/
def Obligations.CapacityBoundary : Prop :=
  ∀ (s : State) (l : List Byte), s.dec.state = .start ∨ s.dec.state = .data →
    (l.length ≤ s.config.nDec →
      ∃ t, runWords (feedWords (0xFE#8 :: (wireOf l ++ [0xA5#8]))) s =
          some (List.replicate (1 + (wireOf l).length) ⟨.ok, false⟩ ++
            [⟨.frame, decide (crcFold 0xFFFF#16 l = 0x0000#16)⟩], t) ∧
        t.rawBytes = l ∧ t.dec.len = l.length ∧ t.dec.state = .start ∧ t.enc = s.enc) ∧
    (s.config.nDec + 1 = l.length →
      ∃ t, runWords (feedWords (0xFE#8 :: (wireOf l ++ [0xA5#8]))) s =
          some (List.replicate (wireOf l).length ⟨.ok, false⟩ ++ [⟨.cap, false⟩, ⟨.ok, false⟩], t) ∧
        t.dec = { state := .start, buf := [], len := 0, crc := 0xFFFF#16 } ∧ t.enc = s.enc)

/-- R192: two frames in a row are handed over in their order, the first before any byte of the second. -/
def Obligations.OrderPreserved : Prop :=
  ∀ (s : State) (l l' : List Byte), s.dec.state = .start → l.length ≤ s.config.nDec → l'.length ≤ s.config.nDec →
    ∃ (t u : State) (rs rs' : List Response),
      runWords (feedWords (0xFE#8 :: (wireOf l ++ [0xA5#8]))) s = some (rs, t) ∧
      t.handedOver = some (l, decide (crcFold 0xFFFF#16 l = 0x0000#16)) ∧
      runWords (feedWords ((0xFE#8 :: (wireOf l ++ [0xA5#8])) ++ (0xFE#8 :: (wireOf l' ++ [0xA5#8])))) s =
        some (rs ++ rs', u) ∧
      u.handedOver = some (l', decide (crcFold 0xFFFF#16 l' = 0x0000#16)) ∧
      (rs ++ rs').filter (fun r => decide (r.status = .frame)) =
        [⟨.frame, decide (crcFold 0xFFFF#16 l = 0x0000#16)⟩, ⟨.frame, decide (crcFold 0xFFFF#16 l' = 0x0000#16)⟩]

/-- R188 (c): after any bytes at all, from any state, a frame whose bytes are intact is handed over intact, as soon as
one sync byte stands before its START (R151: it absorbs an ESCAPE left over from the noise). -/
def Obligations.Resynchronisation : Prop :=
  ∀ (s : State) (noise l : List Byte), s.dec.state ≠ .reserved → l.length ≤ s.config.nDec →
    ∃ (t u : State) (rs rs' : List Response),
      runWords (feedWords (noise ++ [0xFF#8])) s = some (rs, u) ∧
      runWords (feedWords ((noise ++ [0xFF#8]) ++ (0xFE#8 :: (wireOf l ++ [0xA5#8])))) s = some (rs ++ rs', t) ∧
      rs' = List.replicate (1 + (wireOf l).length) ⟨.ok, false⟩ ++
        [⟨.frame, decide (crcFold 0xFFFF#16 l = 0x0000#16)⟩] ∧
      t.handedOver = some (l, decide (crcFold 0xFFFF#16 l = 0x0000#16))

/-- R194: the host's views of a frame that ENC built. -/
def Obligations.FrameViews : Prop :=
  ∀ (c : Byte) (p : List Byte),
    frameCommand (frameLogical c p) = some c ∧ framePayload (frameLogical c p) = p ∧
    frameCrcBytes (frameLogical c p) =
      [(crcFold 0xFFFF#16 (c :: p)).extractLsb' 0 8, (crcFold 0xFFFF#16 (c :: p)).extractLsb' 8 8]

/-! ### Rules over all commands -/

/-- R20: no command reads or writes the other unit: its own unit's next state and the response depend on its own
unit's state and the build parameters alone, and nothing else of the state is written. -/
def Obligations.UnitsShareNothing : Prop :=
  ∀ (w : CommandWord) (s s' t : State), exec (decode (.command w)) s = .next t → s'.config = s.config →
    (isEncWord w = true → s'.enc = s.enc →
      s.OnlyEncChanges t ∧ ∃ t', exec (decode (.command w)) s' = .next t' ∧ t'.enc = t.enc ∧ t'.resp = t.resp) ∧
    (isEncWord w = false → s'.dec = s.dec →
      s.OnlyDecChanges t ∧ ∃ t', exec (decode (.command w)) s' = .next t' ∧ t'.dec = t.dec ∧ t'.resp = t.resp)

/-- R62: any interleaving gives each unit the same states and responses as its own commands alone. -/
def Obligations.InterleavingIsHarmless : Prop :=
  ∀ (ws : List CommandWord) (s t : State) (rs : List Response), runWords ws s = some (rs, t) →
    rs.length = ws.length ∧
    (∃ t', runWords (ws.filter isEncWord) s =
        some ((((ws.zip rs).filter (fun x => isEncWord x.1)).map Prod.snd), t') ∧ t'.enc = t.enc) ∧
    (∃ t', runWords (ws.filter (fun w => !isEncWord w)) s =
        some ((((ws.zip rs).filter (fun x => !isEncWord x.1)).map Prod.snd), t') ∧ t'.dec = t.dec)

/-- R84: the statuses each command can return, `fvalid` 0 unless the status is FRAME, and the bits of the response
word. -/
def Obligations.ResponsesByCommand : Prop :=
  (∀ (w : CommandWord) (s t : State), exec (decode (.command w)) s = .next t →
    ∃ r, t.resp = some r ∧ (r.status ≠ .frame → r.fvalid = false) ∧
      (isEncWord w = true → r.status = .ok ∨ r.status = .cap) ∧
      (decode (.command w) = .decReset → r.status = .ok) ∧
      (∀ b, decode (.command w) = .decFeed b → r.status = .ok ∨ r.status = .frame ∨ r.status = .cap) ∧
      (decode (.command w) = .decRsv2 ∨ decode (.command w) = .decRsv3 → r.status = .illegal)) ∧
  (∀ fv : Bool, (Response.word ⟨.ok, fv⟩).extractLsb' 0 2 = 0b00#2 ∧
    (Response.word ⟨.frame, fv⟩).extractLsb' 0 2 = 0b01#2 ∧ (Response.word ⟨.cap, fv⟩).extractLsb' 0 2 = 0b10#2 ∧
    (Response.word ⟨.illegal, fv⟩).extractLsb' 0 2 = 0b11#2) ∧
  (∀ r : Response, (Response.word r).getLsbD 2 = r.fvalid)

/-- R83, R221, R242: every command word is accepted in every state that holds no reserved code. -/
def Obligations.EveryCommandAccepted : Prop :=
  ∀ (w : CommandWord) (s : State), s.dec.state ≠ .reserved → ∃ t, exec (decode (.command w)) s = .next t

/-- R56, R41: the read port, where the buffers hold a value at exactly the indices below their lengths: a byte below
the length is the buffer's, every other read gives the free value, and the registers read as they are. That a read at or past
the length is `Config.unspecifiedByte` of the transaction counter, the space and the index is the model's choice (log
entry 3): R41 and R56 allow any byte. -/
def Obligations.HostReads : Prop :=
  ∀ s : State, Memory.holdsBelow s.enc.buf s.enc.len → Memory.holdsBelow s.dec.buf s.dec.len →
    (∀ i, i < s.enc.len → Memory.read s.enc.buf i = some (s.memRead .enc i)) ∧
    (∀ i, s.enc.len ≤ i → s.memRead .enc i = Config.unspecifiedByte s.epoch .enc i) ∧
    (∀ i, i < s.dec.len → Memory.read s.dec.buf i = some (s.memRead .dec i)) ∧
    (∀ i, s.dec.len ≤ i → s.memRead .dec i = Config.unspecifiedByte s.epoch .dec i) ∧
    s.hostRead .encLen = .length s.enc.len ∧ s.hostRead .encCrc = .crc s.enc.crc ∧
    s.hostRead .encComplete = .flag s.enc.complete ∧ s.hostRead .encValid = .flag s.enc.valid ∧
    s.hostRead .decState = .code s.dec.state.code ∧ s.hostRead .decLen = .length s.dec.len ∧
    s.hostRead .decCrc = .crc s.dec.crc
end

