-- ==== Sys2Proof/Laws/Crc.lean ====
section
/-! SUPPORT. The CRC accumulator is linear over exclusive or, its iteration has an inverse, and folding is folding
over an append. -/

namespace Sys2Proof.Machine

theorem crcShift_xor (x y : Crc) : crcShift (x ^^^ y) = crcShift x ^^^ crcShift y := by
  unfold crcShift
  rw [BitVec.getLsbD_xor, BitVec.ushiftRight_xor_distrib]
  have hxy : ∀ p a b : Crc, a ^^^ b = (a ^^^ p) ^^^ (b ^^^ p) := fun p a b => by
    rw [BitVec.xor_assoc, ← BitVec.xor_assoc p, BitVec.xor_comm p b, BitVec.xor_assoc b, BitVec.xor_self,
      BitVec.xor_zero]
  cases x.getLsbD 0 <;> cases y.getLsbD 0 <;> simp
  · ac_rfl
  · ac_rfl
  · exact hxy _ _ _

theorem crcShifts_xor (n : Nat) (x y : Crc) : crcShifts n (x ^^^ y) = crcShifts n x ^^^ crcShifts n y := by
  induction n generalizing x y with
  | zero => rfl
  | succ n ih => simp only [crcShifts, crcShift_xor, ih]

theorem crcShifts_zero (n : Nat) : crcShifts n 0 = 0 := by
  induction n with
  | zero => rfl
  | succ n ih => simpa [crcShifts, crcShift] using ih

/-- A value whose low `n` bits are clear is only shifted by `n` iterations. -/
theorem crcShifts_of_low_clear (n : Nat) (c : Crc) (h : ∀ i, i < n → c.getLsbD i = false) :
    crcShifts n c = c >>> n := by
  induction n generalizing c with
  | zero => simp [crcShifts]
  | succ n ih =>
    have h0 := h 0 (by omega)
    simp only [crcShifts, crcShift, h0]
    rw [if_neg (by simp), ih _ (fun i hi => by rw [BitVec.getLsbD_ushiftRight]; exact h _ (by omega)),
      Nat.add_comm n 1, BitVec.shiftRight_add]

/-- The inverse of one iteration: bit 15 of the result says which branch was taken. -/
def crcUnshift (c : Crc) : Crc :=
  if c.getLsbD 15 then ((c ^^^ 0xA001#16) <<< 1) ||| 1#16 else c <<< 1

theorem crcUnshift_crcShift (c : Crc) : crcUnshift (crcShift c) = c := by
  have low : ∀ x : Crc, x.getLsbD 0 = false → crcUnshift (x >>> 1) = x := by
    intro x hx
    have h15 : (x >>> 1).getLsbD 15 = false := by simp
    unfold crcUnshift
    rw [h15, if_neg (by simp)]
    ext i hi
    simp only [← BitVec.getLsbD_eq_getElem]
    rcases i with _ | i
    · simpa using hx
    · simp [hi, Nat.add_comm 1 i]
  by_cases h : c.getLsbD 0
  · have h15 : ((c >>> 1) ^^^ 0xA001#16).getLsbD 15 = true := by simp
    simp only [crcShift, h, if_true]
    unfold crcUnshift
    rw [h15, if_pos rfl, BitVec.xor_assoc, BitVec.xor_self, BitVec.xor_zero]
    ext i hi
    simp only [← BitVec.getLsbD_eq_getElem]
    rcases i with _ | i
    · simpa using h
    · simp [hi, Nat.add_comm 1 i]
  · rw [Bool.not_eq_true] at h
    simp only [crcShift, h, Bool.false_eq_true, if_false]
    exact low c h

theorem crcShifts_injective (n : Nat) : Function.Injective (crcShifts n) := by
  induction n with
  | zero => exact fun _ _ h => h
  | succ n ih => exact fun x y h => Function.LeftInverse.injective crcUnshift_crcShift (ih h)

theorem crcFold_append (c : Crc) (l l' : List Byte) : crcFold c (l ++ l') = crcFold (crcFold c l) l' := by
  induction l generalizing c with
  | nil => rfl
  | cons b l ih => exact ih (crcStep c b)

theorem crcFold_snoc (c : Crc) (l : List Byte) (b : Byte) : crcFold c (l ++ [b]) = crcStep (crcFold c l) b := by
  rw [crcFold_append]; rfl

theorem crcZero_iff (c : Crc) : crcZero c = true ↔ c = 0#16 := by simp [crcZero]

end Sys2Proof.Machine
end

