-- ==== Sys2Proof/Laws/Escape.lean ====
section
/-! SUPPORT. The byte-stuffing functions: the complement is its own inverse, and what `esc` can answer. -/

namespace Sys2Proof.Machine

@[simp] theorem cpl_cpl (b : Byte) : cpl (cpl b) = b := by simp [cpl]

@[simp] theorem unesc_cpl (b : Byte) : unesc (cpl b) = b := cpl_cpl b

theorem isCtrl_iff (b : Byte) : isCtrl b = true ↔ b = startByte ∨ b = escapeByte ∨ b = stopByte := by
  simp [isCtrl, or_assoc]

/-- The two forms of `esc`. -/
theorem esc_cases (b : Byte) :
    (isCtrl b = true ∧ esc b = [escapeByte, cpl b]) ∨ (isCtrl b = false ∧ esc b = [b]) := by
  unfold esc
  cases h : isCtrl b <;> simp

theorem esc_length_pos (b : Byte) : 1 ≤ (esc b).length := by
  rcases esc_cases b with ⟨_, h⟩ | ⟨_, h⟩ <;> simp [h]

theorem esc_length_le (b : Byte) : (esc b).length ≤ 2 := by
  rcases esc_cases b with ⟨_, h⟩ | ⟨_, h⟩ <;> simp [h]

theorem not_isCtrl_ne {b : Byte} (h : isCtrl b = false) : b ≠ startByte ∧ b ≠ escapeByte ∧ b ≠ stopByte := by
  have := mt (isCtrl_iff b).mpr (by simp [h])
  push Not at this
  exact this

end Sys2Proof.Machine
end

