-- ==== Sys2Proof/Laws/Memory.lean ====
section
/-! SUPPORT. The laws of a buffer: a read after a write, the canonical form, and the contents up to a length. -/

namespace Sys2Proof.Machine

@[simp] theorem Memory.read_nil (a : Nat) : Memory.read [] a = none := rfl

theorem Memory.read_write (m : Memory) (a : Nat) (v : Byte) (i : Nat) :
    Memory.read (Memory.write m a v) i = if i = a then some v else Memory.read m i := by
  induction m with
  | nil => simp [Memory.write, Memory.read]
  | cons x m ih =>
    obtain ⟨b, w⟩ := x
    simp only [Memory.write]
    split
    · simp [Memory.read]
    · split
      · subst_vars; simp only [Memory.read]; split <;> simp_all
      · simp only [Memory.read, ih]
        by_cases hi : i = b
        · simp [hi]; omega
        · rw [if_neg hi, if_neg hi]

@[simp] theorem Memory.read_write_same (m : Memory) (a : Nat) (v : Byte) :
    Memory.read (Memory.write m a v) a = some v := by simp [Memory.read_write]

@[simp] theorem Memory.read_write_other (m : Memory) {a i : Nat} (v : Byte) (h : i ≠ a) :
    Memory.read (Memory.write m a v) i = Memory.read m i := by simp [Memory.read_write, h]

theorem Memory.read_writeList (vs : List Byte) (m : Memory) (a i : Nat) :
    Memory.read (Memory.writeList m a vs) i =
      if a ≤ i ∧ i < a + vs.length then vs[i - a]? else Memory.read m i := by
  induction vs generalizing m a with
  | nil => simp [Memory.writeList]
  | cons v vs ih =>
    simp only [Memory.writeList, ih, Memory.read_write, List.length_cons]
    rcases lt_trichotomy i a with h | h | h
    · rw [if_neg (by omega), if_neg (by omega), if_neg (by omega)]
    · subst h; rw [if_neg (by omega), if_pos rfl, if_pos (by omega)]; simp
    · obtain ⟨k, rfl⟩ : ∃ k, i = a + 1 + k := ⟨i - (a + 1), by omega⟩
      have e1 : a + 1 + k - (a + 1) = k := by omega
      have e2 : a + 1 + k - a = k + 1 := by omega
      simp only [e1, e2, List.getElem?_cons_succ]
      by_cases hk : k < vs.length
      · rw [if_pos (by omega), if_pos (by omega)]
      · rw [if_neg (by omega), if_neg (by omega), if_neg (by omega)]

/-! ### The canonical form -/

theorem Memory.risesFrom_mono {m : Memory} {lo lo' : Nat} (h : Memory.risesFrom lo m = true) (hl : lo' ≤ lo) :
    Memory.risesFrom lo' m = true := by
  cases m with
  | nil => rfl
  | cons x m => obtain ⟨b, w⟩ := x; simp only [Memory.risesFrom, Bool.and_eq_true, decide_eq_true_eq] at h ⊢; exact ⟨by omega, h.2⟩

theorem Memory.risesFrom_write (m : Memory) (lo a : Nat) (v : Byte) (h : Memory.risesFrom lo m = true) (hl : lo ≤ a) :
    Memory.risesFrom lo (Memory.write m a v) = true := by
  induction m generalizing lo with
  | nil => simp [Memory.write, Memory.risesFrom, hl]
  | cons x m ih =>
    obtain ⟨b, w⟩ := x
    simp only [Memory.risesFrom, Bool.and_eq_true, decide_eq_true_eq] at h
    simp only [Memory.write]
    split
    · simp only [Memory.risesFrom, Bool.and_eq_true, decide_eq_true_eq]; exact ⟨hl, by omega, h.2⟩
    · split
      · subst_vars; simp only [Memory.risesFrom, Bool.and_eq_true, decide_eq_true_eq]; exact h
      · simp only [Memory.risesFrom, Bool.and_eq_true, decide_eq_true_eq]
        exact ⟨h.1, ih _ h.2 (by omega)⟩

theorem Memory.wf_write {m : Memory} (h : Memory.wf m = true) (a : Nat) (v : Byte) :
    Memory.wf (Memory.write m a v) = true := Memory.risesFrom_write m 0 a v h (Nat.zero_le _)

theorem Memory.wf_writeList (vs : List Byte) {m : Memory} (h : Memory.wf m = true) (a : Nat) :
    Memory.wf (Memory.writeList m a vs) = true := by
  induction vs generalizing m a with
  | nil => exact h
  | cons v vs ih => exact ih (Memory.wf_write h a v) (a + 1)

@[simp] theorem Memory.wf_nil : Memory.wf [] = true := rfl

theorem Memory.read_below {m : Memory} {lo i : Nat} (h : Memory.risesFrom lo m = true) (hi : i < lo) :
    Memory.read m i = none := by
  induction m generalizing lo with
  | nil => rfl
  | cons x m ih =>
    obtain ⟨b, w⟩ := x
    simp only [Memory.risesFrom, Bool.and_eq_true, decide_eq_true_eq] at h
    simp only [Memory.read]
    rw [if_neg (by omega)]
    exact ih h.2 (by omega)

/-- Canonical buffers that read alike are the same data. -/
theorem Memory.ext_of_wf {m n : Memory} (hm : Memory.wf m = true) (hn : Memory.wf n = true)
    (h : ∀ i, Memory.read m i = Memory.read n i) : m = n := by
  unfold Memory.wf at hm hn
  generalize 0 = lo at hm hn
  revert lo
  induction m generalizing n with
  | nil =>
    intro lo hm hn
    cases n with
    | nil => rfl
    | cons y n => obtain ⟨b, w⟩ := y; have := h b; simp [Memory.read] at this
  | cons x m ih =>
    obtain ⟨a, v⟩ := x
    intro lo hm hn
    simp only [Memory.risesFrom, Bool.and_eq_true, decide_eq_true_eq] at hm
    cases n with
    | nil => have := h a; simp [Memory.read] at this
    | cons y n =>
      obtain ⟨b, w⟩ := y
      simp only [Memory.risesFrom, Bool.and_eq_true, decide_eq_true_eq] at hn
      have hab : a = b := by
        rcases lt_trichotomy a b with hlt | heq | hgt
        · have := h a
          simp only [Memory.read] at this
          rw [if_pos trivial, if_neg (by omega), Memory.read_below hn.2 (by omega)] at this
          cases this
        · exact heq
        · have := h b
          simp only [Memory.read] at this
          rw [if_pos trivial, if_neg (by omega), Memory.read_below hm.2 (by omega)] at this
          cases this
      subst hab
      have hv := h a
      simp only [Memory.read, if_true] at hv
      cases hv
      congr 1
      refine ih (fun i => ?_) _ hm.2 hn.2
      have := h i
      simp only [Memory.read] at this
      by_cases hi : i = a
      · subst hi; rw [Memory.read_below hm.2 (by omega), Memory.read_below hn.2 (by omega)]
      · simpa [hi] using this

/-! ### Contents -/

theorem Memory.contentsFrom_append (m : Memory) (a n k : Nat) :
    Memory.contentsFrom m a (n + k) = Memory.contentsFrom m a n ++ Memory.contentsFrom m (a + n) k := by
  induction n generalizing a with
  | zero => simp [Memory.contentsFrom]
  | succ n ih =>
    rw [Nat.succ_add]
    simp only [Memory.contentsFrom, ih, List.append_assoc]
    rw [show a + 1 + n = a + (n + 1) by omega]

theorem Memory.contentsFrom_congr {m m' : Memory} {a n : Nat}
    (h : ∀ i, a ≤ i → i < a + n → Memory.read m i = Memory.read m' i) :
    Memory.contentsFrom m a n = Memory.contentsFrom m' a n := by
  induction n generalizing a with
  | zero => rfl
  | succ n ih =>
    simp only [Memory.contentsFrom]
    rw [h a (Nat.le_refl _) (by omega), ih (fun i h1 h2 => h i (by omega) (by omega))]

theorem Memory.contents_congr {m m' : Memory} {n : Nat} (h : ∀ i, i < n → Memory.read m i = Memory.read m' i) :
    Memory.contents m n = Memory.contents m' n :=
  Memory.contentsFrom_congr (fun i _ hi => h i (by omega))

@[simp] theorem Memory.contents_zero (m : Memory) : Memory.contents m 0 = [] := rfl

/-- Bytes appended at the length are the contents' new end. -/
theorem Memory.contents_append {m m' : Memory} {n : Nat} (w : List Byte)
    (h : ∀ i, Memory.read m' i = if n ≤ i ∧ i < n + w.length then w[i - n]? else Memory.read m i) :
    Memory.contents m' (n + w.length) = Memory.contents m n ++ w := by
  unfold Memory.contents
  rw [Memory.contentsFrom_append, Nat.zero_add]
  congr 1
  · exact Memory.contentsFrom_congr (fun i _ hi => by rw [h, if_neg (by omega)])
  · have key : ∀ k, k ≤ w.length → Memory.contentsFrom m' (n + k) (w.length - k) = w.drop k := by
      intro k hk
      induction hd : w.length - k generalizing k with
      | zero => rw [List.drop_eq_nil_of_le (by omega)]; rfl
      | succ d ih =>
        have hlt : k < w.length := by omega
        simp only [Memory.contentsFrom]
        rw [h, if_pos (by omega), show n + k - n = k by omega, List.getElem?_eq_getElem hlt,
          show n + k + 1 = n + (k + 1) by omega, ih (k + 1) (by omega) (by omega), List.drop_eq_getElem_cons hlt]
        rfl
    simpa using key 0 (Nat.zero_le _)

theorem Memory.contents_length {m : Memory} {n : Nat} (h : Memory.holdsBelow m n) :
    (Memory.contents m n).length = n := by
  have key : ∀ k, k ≤ n → (Memory.contentsFrom m (n - k) k).length = k := by
    intro k hk
    induction k with
    | zero => rfl
    | succ k ih =>
      have hs := h (n - (k + 1))
      rw [decide_eq_true (by omega), Option.isSome_iff_exists] at hs
      obtain ⟨v, hv⟩ := hs
      simp only [Memory.contentsFrom, hv, List.length_append, Option.toList, List.length_singleton]
      rw [show n - (k + 1) + 1 = n - k by omega, ih (by omega)]
      omega
  simpa [Memory.contents] using key n (Nat.le_refl _)

/-- A write at the length keeps exactly the indices below the new length listed. -/
theorem Memory.holdsBelow_append {m m' : Memory} {n : Nat} {w : List Byte} (hb : Memory.holdsBelow m n)
    (h : ∀ i, Memory.read m' i = if n ≤ i ∧ i < n + w.length then w[i - n]? else Memory.read m i) :
    Memory.holdsBelow m' (n + w.length) := by
  intro i
  rw [h]
  by_cases hi : n ≤ i ∧ i < n + w.length
  · rw [if_pos hi, List.getElem?_eq_getElem (by omega)]; simp [hi.2]
  · rw [if_neg hi, hb]
    by_cases h2 : i < n
    · simp [h2]; omega
    · simp [h2]; omega

theorem Memory.holdsBelow_nil : Memory.holdsBelow [] 0 := fun i => by simp

end Sys2Proof.Machine
end

