-- ==== Sys2Proof/Laws/State.lean ====
section
/-! SUPPORT. One lemma per field for each named update of the state. -/

namespace Sys2Proof.Machine

variable (s : State) (st : Status) (fv : Bool)

@[simp] theorem State.respond_config : (s.respond st fv).config = s.config := rfl
@[simp] theorem State.respond_enc : (s.respond st fv).enc = s.enc := rfl
@[simp] theorem State.respond_dec : (s.respond st fv).dec = s.dec := rfl
@[simp] theorem State.respond_resp : (s.respond st fv).resp = some ⟨st, fv⟩ := rfl
@[simp] theorem State.respond_pending : (s.respond st fv).pending = s.pending := rfl
@[simp] theorem State.respond_epoch : (s.respond st fv).epoch = s.epoch := rfl

@[simp] theorem State.tick_config : s.tick.config = s.config := rfl
@[simp] theorem State.tick_enc : s.tick.enc = s.enc := rfl
@[simp] theorem State.tick_dec : s.tick.dec = s.dec := rfl
@[simp] theorem State.tick_resp : s.tick.resp = s.resp := rfl
@[simp] theorem State.tick_pending : s.tick.pending = s.pending := rfl
@[simp] theorem State.tick_epoch : s.tick.epoch = s.epoch + 1 := rfl

@[simp] theorem State.resetEvent_config : s.resetEvent.config = s.config := rfl
@[simp] theorem State.resetEvent_enc : s.resetEvent.enc = EncUnit.reset := rfl
@[simp] theorem State.resetEvent_dec : s.resetEvent.dec = DecUnit.reset := rfl
@[simp] theorem State.resetEvent_resp : s.resetEvent.resp = none := rfl
@[simp] theorem State.resetEvent_pending : s.resetEvent.pending = s.pending := rfl
@[simp] theorem State.resetEvent_epoch : s.resetEvent.epoch = s.epoch := rfl

@[simp] theorem State.raiseError_config (e : ErrorCause) : (s.raiseError e).config = s.config := by cases e <;> rfl
@[simp] theorem State.raiseError_enc (e : ErrorCause) : (s.raiseError e).enc = s.enc := by cases e <;> rfl
@[simp] theorem State.raiseError_pending (e : ErrorCause) : (s.raiseError e).pending = s.pending := by cases e <;> rfl
@[simp] theorem State.raiseError_epoch (e : ErrorCause) : (s.raiseError e).epoch = s.epoch := by cases e <;> rfl
@[simp] theorem State.raiseError_enc_dec : (s.raiseError .encCapacityExceeded).dec = s.dec := rfl
@[simp] theorem State.raiseError_enc_resp : (s.raiseError .encCapacityExceeded).resp = some ⟨.cap, false⟩ := rfl
@[simp] theorem State.raiseError_dec_dec : (s.raiseError .decCapacityExceeded).dec = s.dec.capacityFail := rfl
@[simp] theorem State.raiseError_dec_resp : (s.raiseError .decCapacityExceeded).resp = some ⟨.cap, false⟩ := rfl
@[simp] theorem State.raiseError_illegal_dec : (s.raiseError .illegalCommand).dec = s.dec := rfl
@[simp] theorem State.raiseError_illegal_resp : (s.raiseError .illegalCommand).resp = some ⟨.illegal, false⟩ := rfl

variable (r : Option EncUnit) (e : EncUnit)

@[simp] theorem State.finishEnc_config : (s.finishEnc r).config = s.config := by cases r <;> rfl
@[simp] theorem State.finishEnc_dec : (s.finishEnc r).dec = s.dec := by cases r <;> rfl
@[simp] theorem State.finishEnc_pending : (s.finishEnc r).pending = s.pending := by cases r <;> rfl
@[simp] theorem State.finishEnc_epoch : (s.finishEnc r).epoch = s.epoch := by cases r <;> rfl
@[simp] theorem State.finishEnc_enc : (s.finishEnc r).enc = r.getD s.enc := by cases r <;> rfl
@[simp] theorem State.finishEnc_some_resp : (s.finishEnc (some e)).resp = some ⟨.ok, false⟩ := rfl
@[simp] theorem State.finishEnc_none_resp : (s.finishEnc none).resp = some ⟨.cap, false⟩ := rfl

variable (q : Option DecUnit) (d : DecUnit) (p : ParserState)

@[simp] theorem State.finishDecAppend_config : (s.finishDecAppend q p).config = s.config := by cases q <;> rfl
@[simp] theorem State.finishDecAppend_enc : (s.finishDecAppend q p).enc = s.enc := by cases q <;> rfl
@[simp] theorem State.finishDecAppend_pending : (s.finishDecAppend q p).pending = s.pending := by cases q <;> rfl
@[simp] theorem State.finishDecAppend_epoch : (s.finishDecAppend q p).epoch = s.epoch := by cases q <;> rfl
@[simp] theorem State.finishDecAppend_some_dec : (s.finishDecAppend (some d) p).dec = { d with state := p } := rfl
@[simp] theorem State.finishDecAppend_none_dec : (s.finishDecAppend none p).dec = s.dec.capacityFail := rfl
@[simp] theorem State.finishDecAppend_some_resp : (s.finishDecAppend (some d) p).resp = some ⟨.ok, false⟩ := rfl
@[simp] theorem State.finishDecAppend_none_resp : (s.finishDecAppend none p).resp = some ⟨.cap, false⟩ := rfl

/-- A feed row that answers a next state ran in the DEC.state its key carries. -/
theorem State.inParserState_next {s n t : State} {p : ParserState} (h : s.inParserState p n = .next t) :
    s.dec.state = p ∧ t = n := by
  unfold State.inParserState at h
  split at h
  · exact ⟨‹_›, by cases h; rfl⟩
  · cases h

@[simp] theorem State.inParserState_of_eq {s n : State} {p : ParserState} (h : s.dec.state = p) :
    s.inParserState p n = .next n := if_pos h

theorem State.inParserState_of_ne {s n : State} {p : ParserState} (h : s.dec.state ≠ p) :
    s.inParserState p n = .refused .feedRowNotSelected := if_neg h

@[simp] theorem ParserState.ofCode_code (x : ParserState) : ParserState.ofCode x.code = x := by cases x <;> rfl

end Sys2Proof.Machine
end

