-- ==== Sys2Proof/Laws/Ops.lean ====
section
/-! SUPPORT. One lemma for each shared operation: everything it can do. -/

namespace Sys2Proof.Machine

/-! ### ENC -/

theorem EncUnit.rawAppend_spec (v : Byte) (e : EncUnit) :
    e.AppendedWire [v] (e.rawAppend v) ∧ (e.rawAppend v).crc = e.crc ∧
    (e.rawAppend v).complete = e.complete ∧ (e.rawAppend v).valid = e.valid := by
  refine ⟨⟨rfl, fun i => ?_⟩, rfl, rfl, rfl⟩
  simp only [EncUnit.rawAppend, Memory.read_write, List.length_singleton]
  by_cases h : i = e.len
  · subst h; simp
  · rw [if_neg h, if_neg (by omega)]

theorem EncUnit.appendEscaped_spec (b : Byte) (e : EncUnit) :
    e.AppendedWire (esc b) (e.appendEscaped b) ∧ (e.appendEscaped b).crc = crcStep e.crc b ∧
    (e.appendEscaped b).complete = e.complete ∧ (e.appendEscaped b).valid = e.valid :=
  ⟨⟨rfl, fun i => Memory.read_writeList _ _ _ i⟩, rfl, rfl, rfl⟩

/-- Two appends are one append of both. -/
theorem EncUnit.AppendedWire.trans {w w' : List Byte} {e e' e'' : EncUnit} (h : e.AppendedWire w e')
    (h' : e'.AppendedWire w' e'') : e.AppendedWire (w ++ w') e'' := by
  obtain ⟨hl, hr⟩ := h
  obtain ⟨hl', hr'⟩ := h'
  refine ⟨by rw [hl', hl, List.length_append]; omega, fun i => ?_⟩
  rw [hr', hl, hr, List.length_append]
  by_cases h1 : e.len ≤ i ∧ i < e.len + w.length
  · rw [if_neg (by omega), if_pos h1, if_pos (by omega), List.getElem?_append_left (by omega)]
  · by_cases h2 : e.len + w.length ≤ i ∧ i < e.len + w.length + w'.length
    · rw [if_pos h2, if_pos (by omega), List.getElem?_append_right (by omega)]
      congr 1; omega
    · rw [if_neg h2, if_neg h1, if_neg (by omega)]

theorem EncUnit.protectedAppend_of_fits {nEnc : Nat} {b : Byte} {e : EncUnit} (h : e.len + (esc b).length ≤ nEnc) :
    e.protectedAppend nEnc b = some (e.appendEscaped b) := if_neg (by omega)

theorem EncUnit.protectedAppend_of_full {nEnc : Nat} {b : Byte} {e : EncUnit} (h : nEnc < e.len + (esc b).length) :
    e.protectedAppend nEnc b = none := if_pos (by omega)

theorem EncUnit.completeFrame_of_fits {nEnc : Nat} {e : EncUnit} (h : e.len + e.completeNeed ≤ nEnc) :
    e.completeFrame nEnc = some e.seal := if_neg (by omega)

theorem EncUnit.completeFrame_of_full {nEnc : Nat} {e : EncUnit} (h : nEnc < e.len + e.completeNeed) :
    e.completeFrame nEnc = none := if_pos (by omega)

/-- Everything sealing does: the bytes, the CRC and the flags. -/
theorem EncUnit.seal_spec (e : EncUnit) :
    e.AppendedWire (esc (crcLow e.crc) ++ esc (crcHigh e.crc) ++ [stopByte]) e.seal ∧
    e.seal.crc = crcStep (crcStep e.crc (crcLow e.crc)) (crcHigh e.crc) ∧
    e.seal.complete = true ∧ e.seal.valid = crcZero e.seal.crc :=
  ⟨((EncUnit.appendEscaped_spec (crcLow e.crc) e).1.trans (EncUnit.appendEscaped_spec _ _).1).trans
      (EncUnit.rawAppend_spec stopByte _).1, rfl, rfl, rfl⟩

/-- The two protected appends of ENC.COMPLETE cannot fail after its check (R144). -/
theorem EncUnit.seal_appends_fit {nEnc : Nat} {e : EncUnit} (h : e.len + e.completeNeed ≤ nEnc) :
    e.protectedAppend nEnc (crcLow e.crc) = some (e.appendEscaped (crcLow e.crc)) ∧
    (e.appendEscaped (crcLow e.crc)).protectedAppend nEnc (crcHigh e.crc) =
      some ((e.appendEscaped (crcLow e.crc)).appendEscaped (crcHigh e.crc)) := by
  unfold EncUnit.completeNeed at h
  refine ⟨EncUnit.protectedAppend_of_fits (by omega), EncUnit.protectedAppend_of_fits ?_⟩
  simp only [EncUnit.appendEscaped]
  omega

@[simp] theorem EncUnit.newFrame_eq (e : EncUnit) : e.newFrame = EncUnit.reset := rfl

/-! ### DEC -/

theorem DecUnit.logicalAppend_of_fits {nDec : Nat} {v : Byte} {d : DecUnit} (h : d.len + 1 ≤ nDec) :
    ∃ d', d.logicalAppend nDec v = some d' ∧ d.Appended v d' ∧ d'.state = d.state :=
  ⟨_, if_neg (by omega), ⟨rfl, rfl, fun i => Memory.read_write _ _ _ i⟩, rfl⟩

theorem DecUnit.logicalAppend_of_full {nDec : Nat} {v : Byte} {d : DecUnit} (h : nDec ≤ d.len) :
    d.logicalAppend nDec v = none := if_pos (by omega)

@[simp] theorem DecUnit.toIdle_eq (d : DecUnit) : d.toIdle = DecUnit.reset := rfl

@[simp] theorem DecUnit.capacityFail_eq (d : DecUnit) : d.capacityFail = DecUnit.reset := rfl

/-- DEC's append as the contents of the buffer. -/
theorem DecUnit.Appended.contents {v : Byte} {d d' : DecUnit} (h : d.Appended v d') :
    Memory.contents d'.buf d'.len = Memory.contents d.buf d.len ++ [v] := by
  obtain ⟨hl, _, hr⟩ := h
  rw [hl]
  refine Memory.contents_append [v] (fun i => ?_)
  rw [hr, List.length_singleton]
  by_cases hi : i = d.len
  · subst hi; simp
  · rw [if_neg hi, if_neg (by omega)]

/-- ENC's append as the contents of the buffer. -/
theorem EncUnit.AppendedWire.contents {w : List Byte} {e e' : EncUnit} (h : e.AppendedWire w e') :
    Memory.contents e'.buf e'.len = Memory.contents e.buf e.len ++ w := by
  obtain ⟨hl, hr⟩ := h
  rw [hl]
  exact Memory.contents_append w hr

end Sys2Proof.Machine
end

