-- ==== Sys2Proof/Laws/PerInstr.lean ====
section
/-! SUPPORT. Families of facts about every instruction as syntax. `RowMatch`: the encoder's word of a well-formed
instruction matches that instruction's row of spec/opcode_table.json under the row's mask. -/

namespace Sys2Proof.Laws

/-- A row of spec/opcode_table.json: its width, match and mask. -/
structure TableRow where
  width : Nat
  pattern : Nat
  mask : Nat
  deriving DecidableEq, Repr

/-- The rows of spec/opcode_table.json, in its order. -/
def tableRow : Instr → TableRow
  | .encNew => ⟨11, 0x000, 0x700⟩
  | .encStart _ => ⟨11, 0x100, 0x700⟩
  | .encAdd _ => ⟨11, 0x200, 0x700⟩
  | .encComplete => ⟨11, 0x300, 0x700⟩
  | .decReset => ⟨11, 0x400, 0x700⟩
  | .decFeed _ => ⟨11, 0x500, 0x700⟩
  | .decRsv2 => ⟨11, 0x600, 0x700⟩
  | .decRsv3 => ⟨11, 0x700, 0x700⟩
  | .feedSStart => ⟨10, 0x0FE, 0x3FF⟩
  | .feedSEscape => ⟨10, 0x0FD, 0x3FF⟩
  | .feedSStop => ⟨10, 0x0A5, 0x3FF⟩
  | .feedSOther _ => ⟨10, 0x000, 0x300⟩
  | .feedDStart => ⟨10, 0x1FE, 0x3FF⟩
  | .feedDEscape => ⟨10, 0x1FD, 0x3FF⟩
  | .feedDStop => ⟨10, 0x1A5, 0x3FF⟩
  | .feedDOther _ => ⟨10, 0x100, 0x300⟩
  | .feedEAny _ => ⟨10, 0x200, 0x300⟩
  | .feedXRsv _ => ⟨10, 0x300, 0x300⟩

/-- The width and the number of an encoding. -/
def encodedNumber : Encoded → Nat × Nat
  | .command w => (11, w.toNat)
  | .feedKey k => (10, k.toNat)

/-- The encoding is as wide as the row and matches it. -/
def RowMatch.Statement (i : Instr) : Prop :=
  i.wellFormed = true →
    (encodedNumber (encode i)).1 = (tableRow i).width ∧
    (encodedNumber (encode i)).2 &&& (tableRow i).mask = (tableRow i).pattern

theorem RowMatch.encNew : RowMatch.Statement .encNew := by unfold RowMatch.Statement; decide
theorem RowMatch.encStart : ∀ b, RowMatch.Statement (.encStart b) := by unfold RowMatch.Statement; decide
theorem RowMatch.encAdd : ∀ b, RowMatch.Statement (.encAdd b) := by unfold RowMatch.Statement; decide
theorem RowMatch.encComplete : RowMatch.Statement .encComplete := by unfold RowMatch.Statement; decide
theorem RowMatch.decReset : RowMatch.Statement .decReset := by unfold RowMatch.Statement; decide
theorem RowMatch.decFeed : ∀ b, RowMatch.Statement (.decFeed b) := by unfold RowMatch.Statement; decide
theorem RowMatch.decRsv2 : RowMatch.Statement .decRsv2 := by unfold RowMatch.Statement; decide
theorem RowMatch.decRsv3 : RowMatch.Statement .decRsv3 := by unfold RowMatch.Statement; decide
theorem RowMatch.feedSStart : RowMatch.Statement .feedSStart := by unfold RowMatch.Statement; decide
theorem RowMatch.feedSEscape : RowMatch.Statement .feedSEscape := by unfold RowMatch.Statement; decide
theorem RowMatch.feedSStop : RowMatch.Statement .feedSStop := by unfold RowMatch.Statement; decide
theorem RowMatch.feedSOther : ∀ b, RowMatch.Statement (.feedSOther b) := by unfold RowMatch.Statement; decide
theorem RowMatch.feedDStart : RowMatch.Statement .feedDStart := by unfold RowMatch.Statement; decide
theorem RowMatch.feedDEscape : RowMatch.Statement .feedDEscape := by unfold RowMatch.Statement; decide
theorem RowMatch.feedDStop : RowMatch.Statement .feedDStop := by unfold RowMatch.Statement; decide
theorem RowMatch.feedDOther : ∀ b, RowMatch.Statement (.feedDOther b) := by unfold RowMatch.Statement; decide
theorem RowMatch.feedEAny : ∀ b, RowMatch.Statement (.feedEAny b) := by unfold RowMatch.Statement; decide
theorem RowMatch.feedXRsv : ∀ b, RowMatch.Statement (.feedXRsv b) := by unfold RowMatch.Statement; decide

end Sys2Proof.Laws
end

