-- ==== Sys2Proof/Laws/Run.lean ====
section
/-! SUPPORT. Runs of command words: the first word, and a run in two parts. -/

namespace Sys2Proof.Machine

theorem runWords_cons_of_next {w : CommandWord} {ws : List CommandWord} {s t : State} (h : issue w s = .next t) :
    runWords (w :: ws) s = (runWords ws t).map (fun r => (t.resp.toList ++ r.1, r.2)) := by
  simp only [runWords, h]

/-- A run that completes has a first step that completes. -/
theorem runWords_cons_some {w : CommandWord} {ws : List CommandWord} {s u : State} {rs : List Response}
    (h : runWords (w :: ws) s = some (rs, u)) :
    ∃ t rs', issue w s = .next t ∧ runWords ws t = some (rs', u) ∧ rs = t.resp.toList ++ rs' := by
  simp only [runWords] at h
  split at h
  · rename_i t ht
    simp only [Option.map_eq_some_iff, Prod.mk.injEq, Prod.exists] at h
    obtain ⟨rs', u', h1, h2, rfl⟩ := h
    exact ⟨t, rs', ht, h1, h2.symm⟩
  · cases h
  · cases h

theorem runWords_append {ws ws' : List CommandWord} {s t : State} {rs : List Response}
    (h : runWords ws s = some (rs, t)) :
    runWords (ws ++ ws') s = (runWords ws' t).map (fun r => (rs ++ r.1, r.2)) := by
  induction ws generalizing s rs with
  | nil =>
    cases h
    simp
  | cons w ws ih =>
    obtain ⟨u, rs', h1, h2, rfl⟩ := runWords_cons_some h
    rw [List.cons_append, runWords_cons_of_next h1, ih h2, Option.map_map]
    congr 1
    funext r
    simp

end Sys2Proof.Machine
end

