-- ==== Sys2Proof/Tests/Slice0.lean ====
section
/-! SUPPORT. The model's own tests: expected values are those of spec/95_test_vectors.md (the vector is named at each
test) or worked out by hand from the rule named. Then, for each statement with hypotheses, a concrete state that meets
them. -/

namespace Sys2Proof.Tests

open Sys2Proof.Machine

/-! ### Small states -/

/-- An instance with capacities `n`, `m` and the given units, nothing queued. -/
def mk (n m : Nat) (e : EncUnit) (d : DecUnit) : State :=
  { config := ⟨n, m⟩, enc := e, dec := d, resp := none, pending := [], epoch := 0 }

/-- ENC holding the bytes `w` (with their indices) and a CRC, flags clear. -/
def encWith (w : List Byte) (c : Crc) : EncUnit :=
  { buf := Memory.writeList [] 0 w, len := w.length, crc := c, complete := false, valid := false }

/-- DEC in a state holding the bytes `l` and a CRC. -/
def decWith (p : ParserState) (l : List Byte) (c : Crc) : DecUnit :=
  { state := p, buf := Memory.writeList [] 0 l, len := l.length, crc := c }

/-- The next state of an instruction, if there is one. -/
def post (i : Instr) (s : State) : Option State :=
  match exec i s with
  | .next t => some t
  | .fault _ => none
  | .refused _ => none

/-- What the tests look at in ENC after an instruction, with the response. -/
structure EncView where
  outbound : List Byte
  len : Nat
  crc : Crc
  complete : Bool
  valid : Bool
  resp : Option Response
  deriving DecidableEq, Repr

/-- ENC's contents, length, CRC and flags, and the response, after an instruction. -/
def encView (i : Instr) (s : State) : Option EncView :=
  (post i s).map (fun t => ⟨t.outbound, t.enc.len, t.enc.crc, t.enc.complete, t.enc.valid, t.resp⟩)

/-- DEC's state, contents, length and CRC, and the response, after an instruction. -/
def decView (i : Instr) (s : State) : Option (ParserState × List Byte × Nat × Crc × Option Response) :=
  (post i s).map (fun t => (t.dec.state, t.rawBytes, t.dec.len, t.dec.crc, t.resp))

/-- A used ENC. -/
def enc3 : EncUnit := encWith [0xFF#8, 0xFE#8, 0x03#8] 0x41FF#16

/-- A used DEC. -/
def dec1 : DecUnit := decWith .data [0x03#8] 0x41FF#16

/-! ### CRC and escape functions -/

/-- CV-01. -/
theorem test_crc_step_seed_03 : crcStep 0xFFFF#16 0x03#8 = 0x41FF#16 := by decide
/-- CV-02. -/
theorem test_crc_step_41ff_99 : crcStep 0x41FF#16 0x99#8 = 0x2AC1#16 := by decide
/-- CV-11. -/
theorem test_crc_step_1234_56 : crcStep 0x1234#16 0x56#8 = 0xE993#16 := by decide
/-- CV-16. -/
theorem test_crc_step_seed_73 : crcStep 0xFFFF#16 0x73#8 = 0xA5FE#16 := by decide
/-- CV-12: ASCII "123456789". -/
theorem test_crc_fold_check_string :
    crcFold 0xFFFF#16 [0x31#8, 0x32#8, 0x33#8, 0x34#8, 0x35#8, 0x36#8, 0x37#8, 0x38#8, 0x39#8] = 0x4B37#16 := by
  decide +kernel
/-- CV-09 and CV-17: the right order of the two CRC bytes gives zero, the high byte first does not. -/
theorem test_crc_byte_order :
    crcStep (crcStep 0x2AC1#16 0xC1#8) 0x2A#8 = 0x0000#16 ∧ crcStep (crcStep 0x2AC1#16 0x2A#8) 0xC1#8 = 0xBF0E#16 := by
  decide +kernel
/-- R54, R144: the low byte of 0x2AC1 is 0xC1, its high byte 0x2A. -/
theorem test_crc_bytes : crcLow 0x2AC1#16 = 0xC1#8 ∧ crcHigh 0x2AC1#16 = 0x2A#8 := by decide
/-- XV-01 to XV-06. -/
theorem test_esc : esc 0xFE#8 = [0xFD#8, 0x01#8] ∧ esc 0xFD#8 = [0xFD#8, 0x02#8] ∧ esc 0xA5#8 = [0xFD#8, 0x5A#8] ∧
    esc 0xFF#8 = [0xFF#8] ∧ esc 0x00#8 = [0x00#8] ∧ esc 0x5A#8 = [0x5A#8] := by decide
/-- XV-07 to XV-09. -/
theorem test_unesc : unesc 0x01#8 = 0xFE#8 ∧ unesc 0x5A#8 = 0xA5#8 ∧ unesc 0x00#8 = 0xFF#8 ∧ unesc 0xFE#8 = 0x01#8 := by
  decide

/-! ### Well-formedness: a term that each check refuses -/

/-- R87 row 1 is tried before row 4. -/
theorem test_sOther_of_start_is_ill_formed : Instr.wellFormed (.feedSOther 0xFE#8) = false := by decide
/-- R87 row 7 is tried before row 8. -/
theorem test_dOther_of_stop_is_ill_formed : Instr.wellFormed (.feedDOther 0xA5#8) = false := by decide
/-- The sync byte is no control byte (R71). -/
theorem test_other_of_sync_is_well_formed :
    Instr.wellFormed (.feedSOther 0xFF#8) = true ∧ Instr.wellFormed (.feedDOther 0xFF#8) = true := by decide

/-! ### Decoding: words written out from R80, R81 and R87 -/

/-- unit 0, op 00, the data bits ignored (R81, R82, EV-19). -/
theorem test_decode_encNew : decodeCommand 0b0_00_00000000#11 = .encNew ∧ decodeCommand 0b0_00_11111111#11 = .encNew := by decide
/-- unit 0, op 01, data 0x03 (P1 word 0x103). -/
theorem test_decode_encStart : decodeCommand 0b0_01_00000011#11 = .encStart 0x03#8 := by decide
/-- unit 0, op 10, data 0x99 (P1 word 0x299). -/
theorem test_decode_encAdd : decodeCommand 0b0_10_10011001#11 = .encAdd 0x99#8 := by decide
/-- unit 0, op 11 (P1 word 0x300). -/
theorem test_decode_encComplete : decodeCommand 0b0_11_00000000#11 = .encComplete := by decide
/-- unit 1, op 00 (DV-21 word 0x400). -/
theorem test_decode_decReset : decodeCommand 0b1_00_00000000#11 = .decReset := by decide
/-- unit 1, op 01, data 0xFE (P1 word 0x5FE). -/
theorem test_decode_decFeed : decodeCommand 0b1_01_11111110#11 = .decFeed 0xFE#8 := by decide
/-- unit 1, op 10 (DV-22 word 0x600). -/
theorem test_decode_decRsv2 : decodeCommand 0b1_10_00000000#11 = .decRsv2 := by decide
/-- unit 1, op 11 (DV-22 word 0x7FF). -/
theorem test_decode_decRsv3 : decodeCommand 0b1_11_11111111#11 = .decRsv3 := by decide
/-- State 00 with START, ESCAPE, STOP and the sync byte (R87 rows 1 to 4). -/
theorem test_decode_start_rows : decodeKey 0b00_11111110#10 = .feedSStart ∧ decodeKey 0b00_11111101#10 = .feedSEscape ∧
    decodeKey 0b00_10100101#10 = .feedSStop ∧ decodeKey 0b00_11111111#10 = .feedSOther 0xFF#8 := by decide
/-- State 01 with START, ESCAPE, STOP and 0x99 (R87 rows 5 to 8). -/
theorem test_decode_data_rows : decodeKey 0b01_11111110#10 = .feedDStart ∧ decodeKey 0b01_11111101#10 = .feedDEscape ∧
    decodeKey 0b01_10100101#10 = .feedDStop ∧ decodeKey 0b01_10011001#10 = .feedDOther 0x99#8 := by decide
/-- State 10 with STOP, state 11 with START (R87 rows 9 and 10). -/
theorem test_decode_other_rows : decodeKey 0b10_10100101#10 = .feedEAny 0xA5#8 ∧
    decodeKey 0b11_11111110#10 = .feedXRsv 0xFE#8 := by decide
/-- A number wider than its port is refused by name. -/
theorem test_decode_refuses_wide : decodeCommandNumber 0x800 = .error .wordWiderThanPort ∧
    decodeKeyNumber 0x400 = .error .keyWiderThanTen := by
  constructor <;> rfl
/-- A table word of the port and one of the feed table. -/
theorem test_table_word : decodeTableWord 16 0x2FD = some (.encAdd 0xFD#8) ∧ decodeTableWord 11 0x2FD = some (.encAdd 0xFD#8) ∧
    decodeTableWord 10 0x2FD = some (.feedEAny 0xFD#8) ∧ decodeTableWord 16 0x800 = none := by decide
/-- R85: the words of `BUILD 0x03, 0x99` (P1) and of `FEEDS FF FE`. -/
theorem test_pseudo_words : buildWords 0x03#8 [0x99#8] = [0x000#11, 0x103#11, 0x299#11, 0x300#11] ∧
    feedWords [0xFF#8, 0xFE#8] = [0x5FF#11, 0x5FE#11] := by decide

/-! ### ENC commands -/

/-- EV-17: ENC.NEW in the middle of a frame. -/
theorem test_encNew : encView .encNew (mk 64 16 enc3 dec1) =
    some ⟨[0xFF#8, 0xFE#8], 2, 0xFFFF#16, false, false, some ⟨.ok, false⟩⟩ := by decide
/-- EV-02. -/
theorem test_encStart : encView (.encStart 0x03#8) (mk 64 16 EncUnit.reset dec1) =
    some ⟨[0xFF#8, 0xFE#8, 0x03#8], 3, 0x41FF#16, false, false, some ⟨.ok, false⟩⟩ := by decide +kernel
/-- EV-13: an escape pair does not fit in one free byte, and nothing changes. -/
theorem test_encStart_full : encView (.encStart 0xFE#8) (mk 3 16 EncUnit.reset dec1) =
    some ⟨[0xFF#8, 0xFE#8], 2, 0xFFFF#16, false, false, some ⟨.cap, false⟩⟩ := by decide +kernel
/-- P2: ENC.ADD 0xFE after `[FF FE FD 5A]`, CRC 0x3B7F. -/
theorem test_encAdd_escaped :
    encView (.encAdd 0xFE#8) (mk 16 16 (encWith [0xFF#8, 0xFE#8, 0xFD#8, 0x5A#8] 0x3B7F#16) dec1) =
    some ⟨[0xFF#8, 0xFE#8, 0xFD#8, 0x5A#8, 0xFD#8, 0x01#8], 6, 0x60FB#16, false, false, some ⟨.ok, false⟩⟩ := by
  decide +kernel
/-- EV-16: ENC.ADD after ENC.COMPLETE leaves the flags stale. -/
theorem test_encAdd_stale_flags :
    encView (.encAdd 0x11#8) (mk 64 16 { encWith [0xFF#8, 0xFE#8, 0xFF#8, 0xFF#8, 0xA5#8] 0x0000#16 with
      complete := true, valid := true } dec1) =
    some ⟨[0xFF#8, 0xFE#8, 0xFF#8, 0xFF#8, 0xA5#8, 0x11#8], 6, 0x0CC0#16, true, true, some ⟨.ok, false⟩⟩ := by
  decide +kernel
/-- EV-11 (exactly fits), EV-05: both CRC bytes of 0xA5FE are escaped. -/
theorem test_encComplete_escaped_crc :
    encView .encComplete (mk 8 16 (encWith [0xFF#8, 0xFE#8, 0x73#8] 0xA5FE#16) dec1) =
    some ⟨[0xFF#8, 0xFE#8, 0x73#8, 0xFD#8, 0x01#8, 0xFD#8, 0x5A#8, 0xA5#8], 8, 0x0000#16, true, true,
      some ⟨.ok, false⟩⟩ := by decide +kernel
/-- EV-12: one byte short, and nothing changes. -/
theorem test_encComplete_full :
    encView .encComplete (mk 7 16 (encWith [0xFF#8, 0xFE#8, 0x73#8] 0xA5FE#16) dec1) =
    some ⟨[0xFF#8, 0xFE#8, 0x73#8], 3, 0xA5FE#16, false, false, some ⟨.cap, false⟩⟩ := by decide +kernel

/-! ### DEC commands and feed rows -/

/-- DV-21: DEC.RESET drops a pending escape. -/
theorem test_decReset : decView .decReset (mk 64 16 enc3 (decWith .escapedData [0x03#8] 0x41FF#16)) =
    some (.start, [], 0, 0xFFFF#16, some ⟨.ok, false⟩) := by decide
/-- R182's example: 0x99 in Data. -/
theorem test_decFeed_data : decView (.decFeed 0x99#8) (mk 64 16 enc3 dec1) =
    some (.data, [0x03#8, 0x99#8], 2, 0x2AC1#16, some ⟨.ok, false⟩) := by decide +kernel
/-- DV-02, its last feed: STOP hands the frame over, valid. -/
theorem test_decFeed_stop :
    (post (.decFeed 0xA5#8) (mk 64 16 enc3 (decWith .data [0x03#8, 0x99#8, 0xC1#8, 0x2A#8] 0x0000#16))).bind
      State.handedOver = some ([0x03#8, 0x99#8, 0xC1#8, 0x2A#8], true) := by decide +kernel
/-- DV-22: the reserved commands. -/
theorem test_decRsv2 : decView .decRsv2 (mk 64 16 enc3 dec1) =
    some (.data, [0x03#8], 1, 0x41FF#16, some ⟨.illegal, false⟩) := by decide
/-- DV-22: the reserved commands. -/
theorem test_decRsv3 : encView .decRsv3 (mk 64 16 enc3 dec1) =
    some ⟨[0xFF#8, 0xFE#8, 0x03#8], 3, 0x41FF#16, false, false, some ⟨.illegal, false⟩⟩ := by decide
/-- P3 feed 12: START in Start discards the retained frame. -/
theorem test_feedSStart : decView .feedSStart (mk 64 16 enc3 (decWith .start [0x03#8, 0x99#8, 0xC1#8, 0x2A#8] 0x0000#16)) =
    some (.data, [], 0, 0xFFFF#16, some ⟨.ok, false⟩) := by decide
/-- DV-06, DV-25: ESCAPE, STOP and other bytes in Start keep the retained frame. -/
theorem test_feedS_ignored :
    (∀ i ∈ [Instr.feedSEscape, .feedSStop, .feedSOther 0x11#8],
      decView i (mk 64 16 enc3 (decWith .start [0xFF#8, 0xFF#8] 0x0000#16)) =
        some (.start, [0xFF#8, 0xFF#8], 2, 0x0000#16, some ⟨.ok, false⟩)) := by decide
/-- R180's example: START in Data. -/
theorem test_feedDStart : decView .feedDStart (mk 64 16 enc3 (decWith .data [0x11#8, 0x22#8] 0xF98D#16)) =
    some (.data, [], 0, 0xFFFF#16, some ⟨.ok, false⟩) := by decide
/-- DV-19 feed 2: ESCAPE with a full buffer still moves to EscapedData. -/
theorem test_feedDEscape_full : decView .feedDEscape (mk 64 1 enc3 dec1) =
    some (.escapedData, [0x03#8], 1, 0x41FF#16, some ⟨.ok, false⟩) := by decide
/-- DV-14: a CRC-invalid frame is handed over. -/
theorem test_feedDStop_invalid :
    decView .feedDStop (mk 64 16 enc3 (decWith .data [0x03#8, 0x99#8, 0xC1#8, 0x2B#8] 0xC0C1#16)) =
    some (.start, [0x03#8, 0x99#8, 0xC1#8, 0x2B#8], 4, 0xC0C1#16, some ⟨.frame, false⟩) := by decide
/-- P4 feed 4: the fourth logical byte with `N_DEC = 3`. -/
theorem test_feedDOther_full :
    decView (.feedDOther 0x2A#8) (mk 64 3 enc3 (decWith .data [0x03#8, 0x99#8, 0xC1#8] 0x002A#16)) =
    some (.start, [], 0, 0xFFFF#16, some ⟨.cap, false⟩) := by decide
/-- DV-10: START after ESCAPE is stored as 0x01. -/
theorem test_feedEAny_start : decView (.feedEAny 0xFE#8) (mk 64 16 enc3 (decWith .escapedData [0x03#8] 0x41FF#16)) =
    some (.data, [0x03#8, 0x01#8], 2, 0x80C0#16, some ⟨.ok, false⟩) := by decide +kernel
/-- DV-19 feed 3: the pair's second byte with a full buffer. -/
theorem test_feedEAny_full : decView (.feedEAny 0x01#8) (mk 64 1 enc3 (decWith .escapedData [0x03#8] 0x41FF#16)) =
    some (.start, [], 0, 0xFFFF#16, some ⟨.cap, false⟩) := by decide
/-- DV-28. -/
theorem test_reserved_state_faults : post (.decFeed 0xFE#8) (mk 64 16 enc3 (decWith .reserved [] 0xFFFF#16)) = none := by
  decide

/-! ### Response word, reset, read port, one step -/

/-- R84: `fvalid` is bit 2. -/
theorem test_response_words : (Response.word ⟨.frame, true⟩) = 0b101#3 ∧ (Response.word ⟨.cap, false⟩) = 0b010#3 ∧
    (Response.word ⟨.illegal, false⟩) = 0b011#3 := by decide
/-- R40. -/
theorem test_reset_reads : (State.reset.memRead .enc 0, State.reset.memRead .enc 1) = (0xFF#8, 0xFE#8) ∧
    State.reset.hostRead .decState = .code 0b00#2 ∧ State.reset.hostRead .encCrc = .crc 0xFFFF#16 := by decide
/-- The buffer of `State.reset` has the canonical form. -/
theorem test_reset_memory_canonical : Memory.wf State.reset.enc.buf = true ∧ Memory.wf State.reset.dec.buf = true := by decide
/-- P1 word 1 as the first step after reset. -/
theorem test_step_runs_word : (match step (State.reset.withFetchWord 16 0x103) with
    | .next t => some (t.outbound, t.enc.crc, t.pending)
    | .fault _ => none
    | .refused _ => none) = some ([0xFF#8, 0xFE#8, 0x03#8], 0x41FF#16, []) := by decide +kernel
/-- R87 row 9 as the first step after reset: the feed key carries state EscapedData. -/
theorem test_step_runs_key : (match step (State.reset.withFetchWord 10 0x25A) with
    | .next t => some (t.rawBytes, t.dec.state)
    | .fault _ => none
    | .refused _ => none) = some ([0xA5#8], .data) := by decide +kernel
/-- R9. -/
theorem test_step_refuses_small_capacity : (match step (mk 1 16 enc3 dec1) with
    | .next _ => false
    | .fault _ => false
    | .refused r => r == .encCapacityBelowTwo) = true := by decide
/-- R194 on the frame of WE-03. -/
theorem test_frame_views : frameCommand [0x03#8, 0x99#8, 0xC1#8, 0x2A#8] = some 0x03#8 ∧
    framePayload [0x03#8, 0x99#8, 0xC1#8, 0x2A#8] = [0x99#8] ∧
    frameCrcBytes [0x03#8, 0x99#8, 0xC1#8, 0x2A#8] = [0xC1#8, 0x2A#8] := by decide
/-- EV-04's buffer is the wire form of R72 for command 0x03, payload 0x99. -/
theorem test_frame_wire : frameWire 0x03#8 [0x99#8] = [0xFF#8, 0xFE#8, 0x03#8, 0x99#8, 0xC1#8, 0x2A#8, 0xA5#8] := by
  decide +kernel

/-! ### A state and operands that meet each statement's hypotheses -/

theorem witness_HostResetEvent : ∃ (s : State) (rest : List HostEvent), s.config.admitted = true ∧ s.pending = .reset :: rest :=
  ⟨{ mk 2 0 enc3 dec1 with pending := [.reset] }, [], by decide⟩
/-- One state below the bound and one on it. -/
theorem witness_SmallEncCapacityRefused : (mk 1 0 enc3 dec1).config.nEnc < 2 ∧ 2 ≤ (mk 2 0 enc3 dec1).config.nEnc := by decide
theorem witness_StepRunsDecodedCommand :
    (∃ (s : State) (w : CommandWord) (rest : List HostEvent), s.config.admitted = true ∧ s.pending = .command w :: rest) ∧
    ∃ s : State, s.config.admitted = true ∧ s.pending = [] :=
  ⟨⟨{ mk 2 0 enc3 dec1 with pending := [.command 0x7FF#11] }, 0x7FF#11, [], by decide⟩, mk 2 0 enc3 dec1, by decide⟩
/-- A word of the port, and feed keys of the two clauses' kind, one of them with the highest key. -/
theorem witness_TableWordRunsNext : decodeTableWord 16 0x7FF = some .decRsv3 ∧ decodeTableWord 10 0x3FF = some (.feedXRsv 0xFF#8) ∧
    decodeTableWord 10 0x1A5 = some .feedDStop ∧ State.reset.config.admitted = true := by decide
/-- R87: the key 0x1A5 placed after reset runs FEED.D.STOP, in Data. -/
theorem test_table_word_runs_feed_row :
    (match step (State.reset.withFetchWord 10 0x1A5) with
      | .next t => t.resp
      | .fault _ => none
      | .refused _ => none) = some ⟨.frame, false⟩ := by decide
theorem witness_ResetMeetsInvariant : Config.admitted ⟨2, 0⟩ = true := by decide
/-- A state in the middle of two frames, with a command queued. -/
def midFrame : State :=
  { mk 5 2 { buf := [(0, 0xFF#8), (1, 0xFE#8), (2, 0x03#8)], len := 3, crc := 0x41FF#16, complete := false, valid := false }
      { state := .data, buf := [(0, 0x03#8)], len := 1, crc := 0x41FF#16 } with pending := [.command 0x5FD#11] }
theorem witness_StepKeepsInvariant : ∃ s t : State, s.Inv ∧ step s = .next t := by
  refine ⟨midFrame, _, ⟨rfl, ⟨rfl, ?_, by decide, by decide, rfl, rfl, by decide, by decide +kernel⟩,
    rfl, ?_, by decide, by decide +kernel, by decide⟩, rfl⟩
  · intro i
    show (Memory.read [(0, 0xFF#8), (1, 0xFE#8), (2, 0x03#8)] i).isSome = decide (i < 3)
    rcases i with _ | _ | _ | i <;> simp [Memory.read]
  · intro i
    show (Memory.read [(0, 0x03#8)] i).isSome = decide (i < 1)
    rcases i with _ | i <;> simp [Memory.read]
theorem witness_EveryRunFromResetCompletes : Config.admitted ⟨2, 0⟩ = true := by decide
/-- A run of one ENC and one DEC word completes. -/
theorem witness_StepsIssueInOrder : State.reset.config.admitted = true ∧
    (runWords [0x103#11, 0x5FE#11] { State.reset with pending := [.reset] }).isSome = true := by decide
theorem witness_IdleHoldsState : midFrame.config.admitted = true ∧ { midFrame with pending := [] }.pending = [] := by decide
theorem witness_DecodeEncodeRoundTrip : (Instr.feedDOther 0x5A#8).wellFormed = true := by decide
theorem witness_EscapeFunctions : (0x00#8 : Byte) ≠ 0xFE#8 ∧ (0x00#8 : Byte) ≠ 0xFD#8 ∧ (0x00#8 : Byte) ≠ 0xA5#8 := by decide
theorem witness_EscapeRoundTrip : midFrame.dec.state = .data ∧ midFrame.dec.len < midFrame.config.nDec := by decide
/-- Both clauses at the bound: with one byte free a plain byte fits exactly and a control byte is one too long. -/
theorem witness_EncAppendEffect : (mk 4 0 enc3 dec1).enc.len + (esc 0x99#8).length ≤ (mk 4 0 enc3 dec1).config.nEnc ∧
    (mk 4 0 enc3 dec1).config.nEnc < (mk 4 0 enc3 dec1).enc.len + (esc 0xFE#8).length := by decide
/-- The word clauses of the command statements: for each command a word under its match and mask (R81). -/
theorem witness_command_words : 0x0FF#11 &&& 0x700#11 = 0x000#11 ∧ 0x1FE#11 &&& 0x700#11 = 0x100#11 ∧
    0x2FF#11 &&& 0x700#11 = 0x200#11 ∧ 0x3FF#11 &&& 0x700#11 = 0x300#11 ∧ 0x4FF#11 &&& 0x700#11 = 0x400#11 ∧
    0x5A5#11 &&& 0x700#11 = 0x500#11 ∧ 0x6FF#11 &&& 0x700#11 = 0x600#11 ∧ 0x7FF#11 &&& 0x700#11 = 0x700#11 := by decide
/-- Both clauses at the bound: CRC 0xA5FE needs five bytes (EV-11, EV-12). -/
theorem witness_EncCompleteEffect :
    let e := encWith [0xFF#8, 0xFE#8, 0x73#8] 0xA5FE#16
    let need := fun s : State =>
      s.enc.len + (esc (s.enc.crc.extractLsb' 0 8)).length + (esc (s.enc.crc.extractLsb' 8 8)).length + 1
    need (mk 8 16 e dec1) ≤ (mk 8 16 e dec1).config.nEnc ∧ (mk 7 16 e dec1).config.nEnc < need (mk 7 16 e dec1) := by
  decide
theorem witness_SecondCompleteAppends : ∃ s t : State, exec .encComplete s = .next t ∧ t.resp = some ⟨.ok, false⟩ ∧
    t.enc.len + 3 ≤ t.config.nEnc := ⟨mk 9 0 enc3 dec1, _, rfl, by decide +kernel⟩
/-- A next state for each of the three clauses. -/
theorem witness_CapacityExceededExactly :
    ((post (.encStart 0xFE#8) (mk 3 1 EncUnit.reset dec1)).bind State.resp = some ⟨.cap, false⟩) ∧
    ((post .encComplete (mk 5 1 enc3 dec1)).bind State.resp = some ⟨.cap, false⟩) ∧
    ((post (.decFeed 0x99#8) (mk 5 1 enc3 dec1)).bind State.resp = some ⟨.cap, false⟩) := by decide +kernel
theorem witness_EncCapacityChangesNothing : isEncWord 0x1FE#11 = true ∧
    (post (decode (.command 0x1FE#11)) (mk 3 1 EncUnit.reset dec1)).bind State.resp = some ⟨.cap, false⟩ := by decide +kernel
theorem witness_EncCapacityNotSticky : EncUnit.reset.len + 1 = (mk 3 1 EncUnit.reset dec1).config.nEnc ∧
    isCtrl 0xFE#8 = true ∧ isCtrl 0x03#8 = false := by decide
/-- A next state for each of the three clauses. -/
theorem witness_FlagsWrittenByNewAndComplete : (post .encNew midFrame).isSome = true ∧
    ((post .encComplete (mk 6 1 enc3 dec1)).bind State.resp = some ⟨.ok, false⟩) ∧ (post (.encAdd 0x11#8) midFrame).isSome = true := by
  decide +kernel
theorem witness_EncCrcIsRunningCrc : State.reset.enc.crc = crcFold 0xFFFF#16 [] ∧
    (runWords [0x103#11, 0x299#11, 0x300#11] State.reset).isSome = true := by decide +kernel
/-- EV-09: the frame of command 0x03 fits exactly in six bytes. -/
theorem witness_BuildEmitsFrame : (frameWire 0x03#8 []).length ≤ (mk 6 0 enc3 dec1).config.nEnc := by decide +kernel
/-- EV-14 and EV-10: the failing command is ENC.START (`k = 0`), then ENC.COMPLETE. -/
theorem witness_BuildFitsExactly :
    (runWords (buildWords 0x03#8 []) (mk 2 0 enc3 dec1)).map Prod.fst = some [⟨.ok, false⟩, ⟨.cap, false⟩, ⟨.cap, false⟩] ∧
    2 + (wireOf ([0x03#8].take 0)).length ≤ 2 ∧ 2 < 2 + (wireOf ([0x03#8].take 1)).length ∧
    (runWords (buildWords 0x03#8 []) (mk 5 0 enc3 dec1)).map Prod.fst = some [⟨.ok, false⟩, ⟨.ok, false⟩, ⟨.cap, false⟩] ∧
    2 + (wireOf [0x03#8]).length ≤ 5 ∧ 5 < (frameWire 0x03#8 []).length := by decide +kernel
/-- A completed BUILD, and a DEC in EscapedData with a full buffer that has exactly the room the frame needs. -/
theorem witness_BuiltFrameIsAccepted :
    (runWords (buildWords 0x03#8 []) (mk 6 0 enc3 dec1)).map Prod.fst = some [⟨.ok, false⟩, ⟨.ok, false⟩, ⟨.ok, false⟩] ∧
    (decWith .escapedData [0x01#8, 0x02#8, 0x03#8] 0x0000#16).state ≠ .reserved ∧
    (frameLogical 0x03#8 []).length ≤ (mk 6 3 enc3 (decWith .escapedData [0x01#8, 0x02#8, 0x03#8] 0x0000#16)).config.nDec := by
  decide +kernel
theorem witness_FeedRowsInStart : (mk 2 0 enc3 (decWith .start [] 0xFFFF#16)).dec.state = .start := by decide
theorem witness_FeedControlRowsInData : midFrame.dec.state = .data := by decide
/-- Both rows, with room for exactly one byte and with none. -/
theorem witness_FeedAppendingRows : (mk 2 2 enc3 dec1).dec.state = .data ∧ (mk 2 2 enc3 dec1).dec.len + 1 ≤ (mk 2 2 enc3 dec1).config.nDec ∧
    (mk 2 1 enc3 (decWith .escapedData [0x03#8] 0#16)).dec.state = .escapedData ∧
    (mk 2 1 enc3 (decWith .escapedData [0x03#8] 0#16)).config.nDec < (mk 2 1 enc3 (decWith .escapedData [0x03#8] 0#16)).dec.len + 1 := by decide
theorem witness_FeedRowNeedsItsState : (mk 2 0 enc3 dec1).dec.state ≠ .start ∧ (mk 2 0 enc3 dec1).dec.state ≠ .escapedData ∧
    (mk 2 0 enc3 (decWith .start [] 0#16)).dec.state ≠ .data := by decide
theorem witness_DecFeedStateTable : (decWith .start [] 0#16).state ≠ .reserved ∧ dec1.state ≠ .reserved ∧
    (decWith .escapedData [] 0#16).state ≠ .reserved := by decide
theorem witness_ReservedStateFaults : (mk 2 0 enc3 (decWith .reserved [] 0#16)).dec.state = .reserved ∧
    exec (decode (.command 0x5FE#11)) (mk 2 0 enc3 (decWith .reserved [] 0#16)) = .fault .feedInReservedState := by
  constructor <;> rfl
/-- Both ways: by START in Start, and by a byte in EscapedData. -/
theorem witness_DataEnteredOnlyBy :
    (post (.decFeed 0xFE#8) (mk 2 0 enc3 (decWith .start [] 0#16))).map (fun t => t.dec.state) = some .data ∧
    (post (.feedEAny 0x01#8) (mk 2 1 enc3 (decWith .escapedData [] 0#16))).map (fun t => t.dec.state) = some .data := by decide +kernel
theorem witness_FrameExactlyAtStop : (post (decode (.command 0x5A5#11)) midFrame).isSome = true ∧ midFrame.dec.state = .data := by decide
theorem witness_FrameRetained : (decWith .start [0xFF#8] 0x00FF#16).state = .start ∧ 0xFE#8 ∉ [0xA5#8, 0xFD#8, 0x11#8] := by decide
theorem witness_ReadoutHazard : (decWith .start [0xFF#8] 0x00FF#16).state = .start := by decide
/-- WE-08: four logical bytes against four and against three. -/
theorem witness_CapacityBoundary : (mk 2 4 enc3 dec1).dec.state = .data ∧
    [0x03#8, 0x99#8, 0xC1#8, 0x2A#8].length ≤ (mk 2 4 enc3 dec1).config.nDec ∧
    (mk 2 3 enc3 dec1).config.nDec + 1 = [0x03#8, 0x99#8, 0xC1#8, 0x2A#8].length := by decide
theorem witness_OrderPreserved : (mk 2 2 enc3 (decWith .start [] 0#16)).dec.state = .start ∧
    [0xFF#8, 0xFF#8].length ≤ (mk 2 2 enc3 (decWith .start [] 0#16)).config.nDec := by decide
theorem witness_Resynchronisation : (mk 2 2 enc3 (decWith .escapedData [] 0#16)).dec.state ≠ .reserved ∧
    [0xFF#8, 0xFF#8].length ≤ (mk 2 2 enc3 (decWith .escapedData [] 0#16)).config.nDec := by decide
/-- One ENC word and one DEC word, each on two states that differ in the other unit only. -/
theorem witness_UnitsShareNothing : isEncWord 0x299#11 = true ∧ (post (decode (.command 0x299#11)) midFrame).isSome = true ∧
    isEncWord 0x599#11 = false ∧ (post (decode (.command 0x599#11)) midFrame).isSome = true ∧
    ({ midFrame with dec := DecUnit.reset } : State).enc = midFrame.enc ∧
    ({ midFrame with enc := EncUnit.reset } : State).dec = midFrame.dec := by decide +kernel
theorem witness_InterleavingIsHarmless : (runWords [0x5FE#11, 0x103#11, 0x503#11, 0x300#11] State.reset).isSome = true := by
  decide +kernel
theorem witness_ResponsesByCommand : ∀ w ∈ [0x000#11, 0x103#11, 0x400#11, 0x5A5#11, 0x600#11, 0x700#11],
    (post (decode (.command w)) midFrame).isSome = true := by decide +kernel
theorem witness_EveryCommandAccepted : midFrame.dec.state ≠ .reserved := by decide
theorem witness_HostReads : ∃ s : State, Memory.holdsBelow s.enc.buf s.enc.len ∧ Memory.holdsBelow s.dec.buf s.dec.len ∧
    1 < s.enc.len := by
  refine ⟨State.reset, fun i => ?_, fun i => by simp [State.reset, State.resetAt, DecUnit.reset], by decide⟩
  show (Memory.read [(0, 0xFF#8), (1, 0xFE#8)] i).isSome = decide (i < 2)
  rcases i with _ | _ | i <;> simp [Memory.read]

end Sys2Proof.Tests
end

/-! Proofs for spec/00_scope.md: what one step is, case by case; what DEC.FEED runs in each DEC.state; and the two
statements on the step, that only a small `N_ENC` is refused and that a step runs the decoded command. -/

namespace Sys2Proof.Machine

/-! ### The step -/

theorem Config.admitted_iff (c : Config) : c.admitted = true ↔ 2 ≤ c.nEnc := decide_eq_true_iff

theorem step_of_not_admitted {s : State} (h : s.config.admitted ≠ true) : step s = .refused .encCapacityBelowTwo :=
  if_neg h

theorem step_of_idle {s : State} (ha : s.config.admitted = true) (hp : s.pending = []) : step s = .next s := by
  simp only [step, stepPending, if_pos ha, hp]

theorem step_of_pending {s : State} {ev : HostEvent} {rest : List HostEvent} (ha : s.config.admitted = true)
    (hp : s.pending = ev :: rest) : step s = runEvent ev { s with pending := rest } := by
  simp only [step, stepPending, if_pos ha, hp]

/-! ### The rows DEC.FEED selects (R87) and what it runs -/

theorem feedRow_start : ∀ b : Byte, feedRow (feedKeyOf ParserState.start.code b) =
    if b = startByte then .sStart else if b = escapeByte then .sEscape else if b = stopByte then .sStop
    else .sOther := by decide

theorem feedRow_data : ∀ b : Byte, feedRow (feedKeyOf ParserState.data.code b) =
    if b = startByte then .dStart else if b = escapeByte then .dEscape else if b = stopByte then .dStop
    else .dOther := by decide

theorem feedRow_escapedData : ∀ b : Byte, feedRow (feedKeyOf ParserState.escapedData.code b) = .eAny := by decide

theorem feedRow_reserved : ∀ b : Byte, feedRow (feedKeyOf ParserState.reserved.code b) = .xRsv := by decide

/-- In Start, START opens a frame and every other byte is ignored. -/
theorem execDecFeed_of_start {s : State} (h : s.dec.state = .start) (b : Byte) :
    execDecFeed b s =
      if b = startByte then .next ({ s with dec := { s.dec.beginFrame with state := .data } }.respond .ok false)
      else .next (s.respond .ok false) := by
  unfold execDecFeed State.feedKey
  rw [h, feedRow_start]
  split_ifs <;> exact State.inParserState_of_eq h

/-- In Data, each control byte has its row and every other byte is appended. -/
theorem execDecFeed_of_data {s : State} (h : s.dec.state = .data) (b : Byte) :
    execDecFeed b s =
      if b = startByte then .next ({ s with dec := { s.dec.beginFrame with state := .data } }.respond .ok false)
      else if b = escapeByte then .next ({ s with dec := { s.dec with state := .escapedData } }.respond .ok false)
      else if b = stopByte then
        .next ({ s with dec := { s.dec with state := .start } }.respond .frame (crcZero s.dec.crc))
      else .next (s.finishDecAppend (s.dec.logicalAppend s.config.nDec b) .data) := by
  unfold execDecFeed State.feedKey
  rw [h, feedRow_data]
  split_ifs <;> exact State.inParserState_of_eq h

theorem execDecFeed_of_escapedData {s : State} (h : s.dec.state = .escapedData) (b : Byte) :
    execDecFeed b s = .next (s.finishDecAppend (s.dec.logicalAppend s.config.nDec (unesc b)) .data) := by
  unfold execDecFeed State.feedKey
  rw [h, feedRow_escapedData]
  exact State.inParserState_of_eq h

theorem execDecFeed_of_reserved {s : State} (h : s.dec.state = .reserved) (b : Byte) :
    execDecFeed b s = .fault .feedInReservedState := by
  unfold execDecFeed State.feedKey
  rw [h, feedRow_reserved]
  rfl

theorem execDecFeed_completes {s : State} (h : s.dec.state ≠ .reserved) (b : Byte) :
    ∃ t, execDecFeed b s = .next t := by
  cases hp : s.dec.state with
  | start => rw [execDecFeed_of_start hp]; split_ifs <;> exact ⟨_, rfl⟩
  | data => rw [execDecFeed_of_data hp]; split_ifs <;> exact ⟨_, rfl⟩
  | escapedData => exact ⟨_, execDecFeed_of_escapedData hp b⟩
  | reserved => exact absurd hp h

/-! ### Command words -/

/-- A command word is DEC.FEED of a byte, or an instruction that completes in every state. No word is a feed row. -/
theorem decodeCommand_decFeed_or_completes (w : CommandWord) :
    (∃ b, decodeCommand w = .decFeed b) ∨ ∀ s, ∃ t, exec (decodeCommand w) s = .next t := by
  unfold decodeCommand
  split_ifs
  -- the sixth line of the operation map is DEC.FEED
  on_goal 6 => exact .inl ⟨_, rfl⟩
  all_goals exact .inr fun s => ⟨_, rfl⟩

/-- All that a command word can do: it completes, or it is DEC.FEED in DEC.state 0b11 and faults (R186). -/
theorem exec_decodeCommand_cases (w : CommandWord) (s : State) :
    (∃ t, exec (decodeCommand w) s = .next t) ∨
    (s.dec.state = .reserved ∧ (∃ b, decodeCommand w = .decFeed b) ∧
      exec (decodeCommand w) s = .fault .feedInReservedState) := by
  rcases decodeCommand_decFeed_or_completes w with ⟨b, hw⟩ | hw
  · rw [hw]
    by_cases h : s.dec.state = .reserved
    · exact .inr ⟨h, ⟨b, rfl⟩, execDecFeed_of_reserved h b⟩
    · exact .inl (execDecFeed_completes h b)
  · exact .inl (hw s)

theorem runEvent_ne_refused (ev : HostEvent) (s : State) (r : Refusal) : runEvent ev s ≠ .refused r := by
  cases ev with
  | reset => exact nofun
  | command w =>
    show exec (decodeCommand w) s.tick ≠ .refused r
    rcases exec_decodeCommand_cases w s.tick with ⟨t, h⟩ | ⟨_, _, h⟩ <;> rw [h] <;> exact nofun

theorem step_ne_refused {s : State} (ha : s.config.admitted = true) (r : Refusal) : step s ≠ .refused r := by
  cases hp : s.pending with
  | nil => rw [step_of_idle ha hp]; exact nofun
  | cons ev rest => rw [step_of_pending ha hp]; exact runEvent_ne_refused ev _ r

/-! ### The two statements -/

/-- Settles O3: below the bound the step refuses first; from the bound on, no event of the host is refused, because no
command word decodes to a feed row and DEC.FEED selects only the row of the DEC.state it is in. -/
theorem smallEncCapacityRefused : Obligations.SmallEncCapacityRefused := by
  intro s
  constructor
  · intro h
    exact step_of_not_admitted (mt (Config.admitted_iff _).mp (Nat.not_le.mpr h))
  · exact fun h => step_ne_refused ((Config.admitted_iff _).mpr h)

/-- Settles O4, by the two cases of the queue. -/
theorem stepRunsDecodedCommand : Obligations.StepRunsDecodedCommand :=
  ⟨fun _ _ _ ha hp => step_of_pending ha hp, fun _ ha hp => step_of_idle ha hp⟩

end Sys2Proof.Machine

/-! Proofs for spec/10_state.md: the reset state and the read port; what an instruction can do to each unit, said once
(`EncUnit.Moves`, `DecUnit.Moves`) and that it reads nothing of the other (`exec_enc_local`, `exec_dec_local`); the
units' invariants, and the runs that keep them. -/

namespace Sys2Proof

/-! ### Whose command it is (R20, R80, R87) -/

/-- The commands of ENC; every other instruction is a command of DEC or a row of DEC.FEED. -/
def Instr.isEnc : Instr → Bool
  | .encNew | .encStart _ | .encAdd _ | .encComplete => true
  | .decReset | .decFeed _ | .decRsv2 | .decRsv3 => false
  | .feedSStart | .feedSEscape | .feedSStop | .feedSOther _ => false
  | .feedDStart | .feedDEscape | .feedDStop | .feedDOther _ => false
  | .feedEAny _ | .feedXRsv _ => false

/-- The mask of the operation map keeps the three bits of `unit || op`. -/
theorem and_opMask (w : CommandWord) : w &&& 0x700#11 =
    (if w.getLsbD 10 then 0x400#11 else 0#11) ||| (if w.getLsbD 9 then 0x200#11 else 0#11) |||
      (if w.getLsbD 8 then 0x100#11 else 0#11) := by
  rw [show 0x700#11 = BitVec.twoPow 11 10 ||| BitVec.twoPow 11 9 ||| BitVec.twoPow 11 8 from rfl,
    BitVec.and_or_distrib_left, BitVec.and_or_distrib_left]
  simp only [BitVec.and_twoPow]
  rfl

/-- The unit bit is set in the four lower rows of the operation map (R81): one case for each value of `unit || op`. -/
theorem isEncWord_eq_isEnc_decodeCommand (w : CommandWord) : Machine.isEncWord w = (decodeCommand w).isEnc := by
  unfold Machine.isEncWord decodeCommand
  rw [and_opMask]
  cases w.getLsbD 10 <;> cases w.getLsbD 9 <;> cases w.getLsbD 8 <;> rfl

@[simp] theorem keyData_feedKeyOf (c : BitVec 2) (b : Byte) : keyData (feedKeyOf c b) = b :=
  BitVec.extractLsb'_append_eq_right

theorem isEnc_decodeKey (k : FeedKey) : (decodeKey k).isEnc = false := by
  unfold decodeKey
  cases feedRow k <;> rfl

theorem decodeKey_ne_decFeed (k : FeedKey) (b : Byte) : decodeKey k ≠ .decFeed b := by
  unfold decodeKey
  cases feedRow k <;> exact nofun

end Sys2Proof

namespace Sys2Proof.Machine

/-! ### Reads of a buffer (R41, R56) -/

theorem Memory.holdsBelow.read_eq_none {m : Memory} {n i : Nat} (h : Memory.holdsBelow m n) (hi : n ≤ i) :
    Memory.read m i = none := by
  simpa [Nat.not_lt.mpr hi] using h i

theorem State.memRead_enc_of_le {s : State} {i : Nat} (h : s.enc.len ≤ i) :
    s.memRead .enc i = Config.unspecifiedByte s.epoch .enc i := if_neg (Nat.not_lt.mpr h)

theorem State.memRead_dec_of_le {s : State} {i : Nat} (h : s.dec.len ≤ i) :
    s.memRead .dec i = Config.unspecifiedByte s.epoch .dec i := if_neg (Nat.not_lt.mpr h)

theorem Memory.holdsBelow.read_eq_some_getD {m : Memory} {n i : Nat} (h : Memory.holdsBelow m n) (hi : i < n)
    (v : Byte) : Memory.read m i = some ((Memory.read m i).getD v) := by
  obtain ⟨w, hw⟩ := Option.isSome_iff_exists.mp ((h i).trans (decide_eq_true hi))
  rw [hw, Option.getD_some]

theorem State.read_enc_eq_memRead {s : State} {i : Nat} (hb : Memory.holdsBelow s.enc.buf s.enc.len)
    (h : i < s.enc.len) : Memory.read s.enc.buf i = some (s.memRead .enc i) := by
  simp only [State.memRead, if_pos h]
  exact hb.read_eq_some_getD h _

theorem State.read_dec_eq_memRead {s : State} {i : Nat} (hb : Memory.holdsBelow s.dec.buf s.dec.len)
    (h : i < s.dec.len) : Memory.read s.dec.buf i = some (s.memRead .dec i) := by
  simp only [State.memRead, if_pos h]
  exact hb.read_eq_some_getD h _

theorem EncUnit.reset_holdsBelow : Memory.holdsBelow EncUnit.reset.buf 2 := by
  rintro (_ | _ | i)
  · rfl
  · rfl
  · simp [EncUnit.reset, Memory.read]

/-- Settles O57: below the length the buffer has a byte and the port reads it, and from the length on the port reads the
free value. -/
theorem hostReads : Obligations.HostReads := fun _ henc hdec =>
  ⟨fun _ => State.read_enc_eq_memRead henc, fun _ => State.memRead_enc_of_le,
    fun _ => State.read_dec_eq_memRead hdec, fun _ => State.memRead_dec_of_le, rfl, rfl, rfl, rfl, rfl, rfl, rfl⟩

/-- Settles O1: the registers are the table's, only the preamble is listed, and ENC.NEW and DEC.RESET build the same
units. -/
theorem resetStateValues : Obligations.ResetStateValues := fun _ =>
  ⟨rfl, rfl, fun _ hi => ⟨EncUnit.reset_holdsBelow.read_eq_none hi, State.memRead_enc_of_le hi⟩,
    rfl, rfl, rfl, rfl, rfl, fun i => ⟨rfl, State.memRead_dec_of_le (Nat.zero_le i)⟩, rfl, rfl,
    fun _ => ⟨_, rfl, rfl⟩, fun _ => ⟨_, rfl, rfl⟩⟩

/-- Settles O48: START begins a frame of length 0, so no index is below the length. -/
theorem readoutHazard : Obligations.ReadoutHazard := by
  intro s hs
  refine ⟨_, (execDecFeed_of_start hs 0xFE#8).trans (if_pos rfl), fun i => ?_⟩
  exact State.memRead_dec_of_le (Nat.zero_le i)

/-! ### An instruction reads and writes its own unit only (R20) -/

theorem State.finishEnc_local {s s' : State} (q : Option EncUnit) (he : s'.enc = s.enc) :
    s'.finishEnc q = { s' with enc := (s.finishEnc q).enc, resp := (s.finishEnc q).resp } := by
  cases q with
  | some e => rfl
  | none => simp only [State.finishEnc_enc, Option.getD_none, ← he]; rfl

/-- Every ENC command ends the same way, from a function of the capacity and ENC alone. -/
theorem exec_enc_eq_finishEnc {i : Instr} (hi : i.isEnc = true) :
    ∃ f : Nat → EncUnit → Option EncUnit, ∀ s, exec i s = .next (s.finishEnc (f s.config.nEnc s.enc)) := by
  cases i with
  | encNew => exact ⟨fun _ e => some e.newFrame, fun _ => rfl⟩
  | encStart b => exact ⟨fun n e => e.protectedAppend n b, fun _ => rfl⟩
  | encAdd b => exact ⟨fun n e => e.protectedAppend n b, fun _ => rfl⟩
  | encComplete => exact ⟨fun n e => e.completeFrame n, fun _ => rfl⟩
  | _ => cases hi

/-- What an ENC command writes depends on the build parameters and ENC alone, and it writes ENC and the response. -/
theorem exec_enc_local {i : Instr} {s s' t : State} (hi : i.isEnc = true) (h : exec i s = .next t)
    (hc : s'.config = s.config) (he : s'.enc = s.enc) :
    exec i s' = .next { s' with enc := t.enc, resp := t.resp } := by
  obtain ⟨f, hf⟩ := exec_enc_eq_finishEnc hi
  rw [hf] at h
  cases h
  rw [hf, State.finishEnc_local _ he, hc, he]

theorem State.inParserState_local {s s' n n' t : State} {p : ParserState} (hd : s'.dec = s.dec)
    (hn : n' = { s' with dec := n.dec, resp := n.resp }) (h : s.inParserState p n = .next t) :
    s'.inParserState p n' = .next { s' with dec := t.dec, resp := t.resp } := by
  obtain ⟨hp, rfl⟩ := State.inParserState_next h
  rw [State.inParserState_of_eq (hd ▸ hp), hn]

theorem State.finishDecAppend_local {s s' : State} (q : Option DecUnit) (p : ParserState) (hd : s'.dec = s.dec) :
    s'.finishDecAppend q p = { s' with dec := (s.finishDecAppend q p).dec, resp := (s.finishDecAppend q p).resp } := by
  cases q with
  | some d => rfl
  | none => simp only [State.finishDecAppend_none_dec, ← hd]; rfl

theorem exec_decFeed_eq_exec_decodeKey (b : Byte) (s : State) :
    exec (.decFeed b) s = exec (decodeKey (s.feedKey b)) s := by
  show execDecFeed b s = _
  unfold execDecFeed decodeKey
  rw [State.feedKey, keyData_feedKeyOf]
  cases feedRow (feedKeyOf s.dec.state.code b) <;> rfl

/-- The case of `exec_dec_local` that DEC.FEED is reduced to. -/
theorem exec_local_of_ne_decFeed {i : Instr} {s s' t : State} (hi : i.isEnc = false) (hf : ∀ b, i ≠ .decFeed b)
    (h : exec i s = .next t) (hc : s'.config = s.config) (hd : s'.dec = s.dec) :
    exec i s' = .next { s' with dec := t.dec, resp := t.resp } := by
  obtain ⟨c, e, d, r, p, n⟩ := s
  obtain ⟨c', e', d', r', p', n'⟩ := s'
  obtain rfl : c' = c := hc
  obtain rfl : d' = d := hd
  cases i with
  | encNew | encStart | encAdd | encComplete => cases hi
  | decFeed b => exact absurd rfl (hf b)
  | decReset | decRsv2 | decRsv3 => cases h; rfl
  | feedSStart | feedSEscape | feedSStop | feedSOther | feedDStart | feedDEscape | feedDStop =>
    exact State.inParserState_local rfl rfl h
  | feedDOther | feedEAny =>
    refine State.inParserState_local rfl ?_ h
    exact State.finishDecAppend_local _ _ rfl
  | feedXRsv => cases h

/-- What a DEC command or a feed row writes depends on the build parameters and DEC alone, and it writes DEC and the
response. -/
theorem exec_dec_local {i : Instr} {s s' t : State} (hi : i.isEnc = false) (h : exec i s = .next t)
    (hc : s'.config = s.config) (hd : s'.dec = s.dec) :
    exec i s' = .next { s' with dec := t.dec, resp := t.resp } := by
  by_cases hf : ∃ b, i = .decFeed b
  · obtain ⟨b, rfl⟩ := hf
    have hkey : s'.feedKey b = s.feedKey b := by rw [State.feedKey, State.feedKey, hd]
    rw [exec_decFeed_eq_exec_decodeKey] at h ⊢
    rw [hkey]
    exact exec_local_of_ne_decFeed (isEnc_decodeKey _) (decodeKey_ne_decFeed _) h hc hd
  · exact exec_local_of_ne_decFeed hi (not_exists.mp hf) h hc hd

theorem exec_onlyEncChanges {i : Instr} {s t : State} (hi : i.isEnc = true) (h : exec i s = .next t) :
    s.OnlyEncChanges t := by
  rw [Host.Outcome.next.inj (h.symm.trans (exec_enc_local hi h rfl rfl))]
  exact ⟨rfl, rfl, rfl, rfl⟩

theorem exec_onlyDecChanges {i : Instr} {s t : State} (hi : i.isEnc = false) (h : exec i s = .next t) :
    s.OnlyDecChanges t := by
  rw [Host.Outcome.next.inj (h.symm.trans (exec_dec_local hi h rfl rfl))]
  exact ⟨rfl, rfl, rfl, rfl⟩

theorem exec_config {i : Instr} {s t : State} (h : exec i s = .next t) : t.config = s.config := by
  cases hi : i.isEnc with
  | true => exact (exec_onlyEncChanges hi h).1
  | false => exact (exec_onlyDecChanges hi h).1

theorem exec_enc_of_not_isEnc {i : Instr} {s t : State} (hi : i.isEnc = false) (h : exec i s = .next t) :
    t.enc = s.enc := by
  obtain ⟨-, henc, -, -⟩ := exec_onlyDecChanges hi h
  exact henc

theorem exec_dec_of_isEnc {i : Instr} {s t : State} (hi : i.isEnc = true) (h : exec i s = .next t) :
    t.dec = s.dec := by
  obtain ⟨-, hdec, -, -⟩ := exec_onlyEncChanges hi h
  exact hdec

/-- Settles O53: the `unit` bit says whose command the word is, and a command's result is a function of the build
parameters and its own unit. -/
theorem unitsShareNothing : Obligations.UnitsShareNothing := by
  intro w s s' t h hc
  change exec (decodeCommand w) s = .next t at h
  rw [isEncWord_eq_isEnc_decodeCommand]
  exact ⟨fun hi he => ⟨exec_onlyEncChanges hi h, _, exec_enc_local hi h hc he, rfl, rfl⟩,
    fun hi hd => ⟨exec_onlyDecChanges hi h, _, exec_dec_local hi h hc hd, rfl, rfl⟩⟩

/-! ### All that an instruction can do to ENC -/

/-- How an instruction that completes with the response `r` leaves ENC, from `e` and under the capacity `nEnc`. -/
inductive EncUnit.Moves (nEnc : Nat) (e : EncUnit) : Instr → Option Response → EncUnit → Prop
  /-- ENC.NEW (R141). -/
  | new : EncUnit.Moves nEnc e .encNew (some okResponse) .reset
  /-- A successful ENC.START or ENC.ADD (R142, R143). -/
  | append (b : Byte) {i : Instr} (hi : i = .encStart b ∨ i = .encAdd b) (fits : e.len + (esc b).length ≤ nEnc) :
      EncUnit.Moves nEnc e i (some okResponse) (e.appendEscaped b)
  /-- A successful ENC.COMPLETE (R144). -/
  | sealed (fits : e.len + e.completeNeed ≤ nEnc) : EncUnit.Moves nEnc e .encComplete (some okResponse) e.seal
  /-- ENC.START or ENC.ADD without room (R211). -/
  | appendFull (b : Byte) {i : Instr} (hi : i = .encStart b ∨ i = .encAdd b) (full : nEnc < e.len + (esc b).length) :
      EncUnit.Moves nEnc e i (some capResponse) e
  /-- ENC.COMPLETE without room (R211). -/
  | completeFull (full : nEnc < e.len + e.completeNeed) : EncUnit.Moves nEnc e .encComplete (some capResponse) e
  /-- An instruction that is no ENC command (R20). -/
  | other {i : Instr} (r : Option Response) (hi : i.isEnc = false) : EncUnit.Moves nEnc e i r e

theorem State.finishEnc_append_moves (s : State) {b : Byte} {i : Instr} (hi : i = .encStart b ∨ i = .encAdd b) :
    s.enc.Moves s.config.nEnc i (s.finishEnc (s.enc.protectedAppend s.config.nEnc b)).resp
      (s.finishEnc (s.enc.protectedAppend s.config.nEnc b)).enc := by
  rcases Nat.lt_or_ge s.config.nEnc (s.enc.len + (esc b).length) with h | h
  · rw [EncUnit.protectedAppend_of_full h]
    exact .appendFull b hi h
  · rw [EncUnit.protectedAppend_of_fits h]
    exact .append b hi h

theorem State.finishEnc_complete_moves (s : State) :
    s.enc.Moves s.config.nEnc .encComplete (s.finishEnc (s.enc.completeFrame s.config.nEnc)).resp
      (s.finishEnc (s.enc.completeFrame s.config.nEnc)).enc := by
  rcases Nat.lt_or_ge s.config.nEnc (s.enc.len + s.enc.completeNeed) with h | h
  · rw [EncUnit.completeFrame_of_full h]
    exact .completeFull h
  · rw [EncUnit.completeFrame_of_fits h]
    exact .sealed h

theorem exec_enc_moves {i : Instr} {s t : State} (h : exec i s = .next t) :
    s.enc.Moves s.config.nEnc i t.resp t.enc := by
  cases hi : i.isEnc with
  | false =>
    rw [exec_enc_of_not_isEnc hi h]
    exact .other _ hi
  | true =>
    cases i with
    | encNew => cases h; exact .new
    | encStart b => cases h; exact s.finishEnc_append_moves (.inl rfl)
    | encAdd b => cases h; exact s.finishEnc_append_moves (.inr rfl)
    | encComplete => cases h; exact s.finishEnc_complete_moves
    | _ => cases hi

/-- R25, R26: what each move does to the flags. -/
theorem EncUnit.Moves.flags {nEnc : Nat} {e e' : EncUnit} {i : Instr} {r : Option Response}
    (h : e.Moves nEnc i r e') :
    (i = .encNew → e'.complete = false ∧ e'.valid = false) ∧
    (i = .encComplete → r = some okResponse → e'.complete = true ∧ e'.valid = decide (e'.crc = 0x0000#16)) ∧
    (i ≠ .encNew → ¬ (i = .encComplete ∧ r = some okResponse) →
      e'.complete = e.complete ∧ e'.valid = e.valid) := by
  cases h with
  | new => exact ⟨fun _ => ⟨rfl, rfl⟩, nofun, fun h => absurd rfl h⟩
  | append b hi _ | appendFull b hi _ => rcases hi with rfl | rfl <;> exact ⟨nofun, nofun, fun _ _ => ⟨rfl, rfl⟩⟩
  | sealed _ => exact ⟨nofun, fun _ _ => ⟨rfl, rfl⟩, fun _ h => absurd ⟨rfl, rfl⟩ h⟩
  | completeFull _ => exact ⟨nofun, nofun, fun _ _ => ⟨rfl, rfl⟩⟩
  | other _ hi => exact ⟨fun h => (by subst h; cases hi), fun h => (by subst h; cases hi), fun _ _ => ⟨rfl, rfl⟩⟩

/-- Settles O29, by the moves of ENC. -/
theorem flagsWrittenByNewAndComplete : Obligations.FlagsWrittenByNewAndComplete :=
  fun _ _ _ h => (exec_enc_moves h).flags

/-! ### The running CRC (R24) -/

/-- One command folds into the CRC exactly the logical bytes it accumulates. -/
theorem EncUnit.Moves.crc {nEnc : Nat} {s : State} {e' : EncUnit} {w : CommandWord} {r : Option Response}
    {sofar : List Byte} (h : s.enc.Moves nEnc (decodeCommand w) r e') (hs : s.enc.crc = crcFold crcSeed sofar) :
    e'.crc = crcFold crcSeed (accumulate sofar w s r) := by
  unfold accumulate
  generalize decodeCommand w = i at h ⊢
  cases h with
  | new => rfl
  | append b hi _ =>
    have hcrc : (s.enc.appendEscaped b).crc = crcFold crcSeed (sofar ++ [b]) := by
      rw [crcFold_snoc, ← hs]; rfl
    rcases hi with rfl | rfl <;> exact hcrc
  | sealed _ =>
    show s.enc.seal.crc = crcFold crcSeed (sofar ++ [crcLow s.enc.crc, crcHigh s.enc.crc])
    rw [crcFold_append, ← hs]; rfl
  | appendFull b hi _ => rcases hi with rfl | rfl <;> exact hs
  | completeFull _ => exact hs
  | other _ hi =>
    cases i with
    | encNew | encStart | encAdd | encComplete => cases hi
    | _ => exact hs

/-- Settles O30, by induction on the commands. -/
theorem encCrcIsRunningCrc : Obligations.EncCrcIsRunningCrc := by
  intro ws
  induction ws with
  | nil =>
    intro s t rs sofar hs h
    cases h
    exact hs
  | cons w ws ih =>
    intro s t rs sofar hs h
    obtain ⟨u, rs', hu, hrest, -⟩ := runWords_cons_some h
    have hcrc := (exec_enc_moves hu).crc (s := s.tick) hs
    simp only [accumulatedOver, hu]
    exact ih u t rs' _ hcrc hrest

/-! ### All that an instruction can do to DEC -/

/-- How an instruction that completes leaves DEC, from `d` and under the capacity `nDec`. -/
inductive DecUnit.Moves (nDec : Nat) (d : DecUnit) : DecUnit → Prop
  /-- Nothing is written. -/
  | same : DecUnit.Moves nDec d d
  /-- ESCAPE and STOP in state Data write DEC.state alone (R181, R183). -/
  | goTo (p : ParserState) (hp : p ≠ .reserved) : DecUnit.Moves nDec d { d with state := p }
  /-- The frame is emptied (R170, R171, R173). -/
  | restart (p : ParserState) (hp : p ≠ .reserved) : DecUnit.Moves nDec d { DecUnit.reset with state := p }
  /-- One logical byte is appended (R172). -/
  | append (v : Byte) {d' : DecUnit} (h : d.logicalAppend nDec v = some d') :
      DecUnit.Moves nDec d { d' with state := .data }

theorem State.finishDecAppend_moves (s : State) (v : Byte) :
    s.dec.Moves s.config.nDec (s.finishDecAppend (s.dec.logicalAppend s.config.nDec v) .data).dec := by
  rcases Nat.lt_or_ge s.dec.len s.config.nDec with h | h
  · obtain ⟨d', hd', -⟩ := DecUnit.logicalAppend_of_fits (v := v) h
    rw [hd']
    exact .append v hd'
  · rw [DecUnit.logicalAppend_of_full h]
    exact .restart .start nofun

/-- The case of `exec_dec_moves` that DEC.FEED is reduced to. -/
theorem exec_dec_moves_of_ne_decFeed {i : Instr} {s t : State} (hf : ∀ b, i ≠ .decFeed b) (h : exec i s = .next t) :
    s.dec.Moves s.config.nDec t.dec := by
  cases i with
  | encNew | encStart | encAdd | encComplete =>
    rw [exec_dec_of_isEnc rfl h]
    exact .same
  | decFeed b => exact absurd rfl (hf b)
  | decReset => cases h; exact .restart .start nofun
  | decRsv2 | decRsv3 => cases h; exact .same
  | feedSEscape | feedSStop | feedSOther => obtain ⟨-, rfl⟩ := State.inParserState_next h; exact .same
  | feedSStart | feedDStart => obtain ⟨-, rfl⟩ := State.inParserState_next h; exact .restart .data nofun
  | feedDEscape => obtain ⟨-, rfl⟩ := State.inParserState_next h; exact .goTo .escapedData nofun
  | feedDStop => obtain ⟨-, rfl⟩ := State.inParserState_next h; exact .goTo .start nofun
  | feedDOther | feedEAny => obtain ⟨-, rfl⟩ := State.inParserState_next h; exact s.finishDecAppend_moves _
  | feedXRsv => cases h

theorem exec_dec_moves {i : Instr} {s t : State} (h : exec i s = .next t) : s.dec.Moves s.config.nDec t.dec := by
  by_cases hf : ∃ b, i = .decFeed b
  · obtain ⟨b, rfl⟩ := hf
    rw [exec_decFeed_eq_exec_decodeKey] at h
    exact exec_dec_moves_of_ne_decFeed (decodeKey_ne_decFeed _) h
  · exact exec_dec_moves_of_ne_decFeed (not_exists.mp hf) h

/-! ### The logical bytes of wire bytes (R72, R73) -/

/-- Wire bytes that stand for the logical bytes `l`, and wire bytes after them. -/
theorem wireParse_append {f : Bool} {u l : List Byte} (w : List Byte) (h : wireParse f u = some l) :
    wireParse f (u ++ w) = (wireParse false w).map (l ++ ·) := by
  induction u generalizing f l with
  | nil =>
    cases f with
    | false => cases h; simp
    | true => cases h
  | cons b u ih =>
    cases f with
    | true =>
      simp only [wireParse] at h
      simp only [List.cons_append, wireParse]
      split_ifs at h ⊢
      obtain ⟨l', hl', rfl⟩ := Option.map_eq_some_iff.mp h
      simp [ih hl', Function.comp_def]
    | false =>
      simp only [wireParse] at h
      simp only [List.cons_append, wireParse]
      split_ifs at h ⊢
      · exact ih h
      · exact ih h
      · obtain ⟨l', hl', rfl⟩ := Option.map_eq_some_iff.mp h
        simp [ih hl', Function.comp_def]

theorem wireParse_esc (b : Byte) : wireParse false (esc b) = some [b] := by
  rcases esc_cases b with ⟨hb, he⟩ | ⟨hb, he⟩
  · simp [he, wireParse, hb]
  · obtain ⟨hstart, hescape, hstop⟩ := not_isCtrl_ne hb
    simp [he, wireParse, hstart, hescape, hstop]

/-- The bytes that ENC.COMPLETE appends stand for the two CRC bytes. -/
theorem wireParse_esc_esc_stop (a b : Byte) : wireParse false (esc a ++ esc b ++ [stopByte]) = some [a, b] := by
  have hstop : wireParse false [stopByte] = some [] := rfl
  rw [List.append_assoc, wireParse_append _ (wireParse_esc a), wireParse_append _ (wireParse_esc b), hstop]
  rfl

/-! ### ENC's invariant (R23, R27) -/

theorem EncUnit.reset_inv {c : Config} (hc : c.admitted = true) : EncUnit.reset.Inv c :=
  ⟨rfl, EncUnit.reset_holdsBelow, Nat.le_refl 2, (Config.admitted_iff c).mp hc, rfl, rfl, nofun, rfl⟩

/-- Wire bytes appended within the capacity, the CRC folded over the logical bytes they stand for. -/
theorem EncUnit.Inv.appendedWire {c : Config} {e e' : EncUnit} {w l : List Byte} (h : e.Inv c)
    (ha : e.AppendedWire w e') (hwf : Memory.wf e'.buf = true) (hlen : e'.len ≤ c.nEnc)
    (hflags : e'.valid = true → e'.complete = true) (hw : wireParse false w = some l)
    (hcrc : e'.crc = crcFold e.crc l) : e'.Inv c := by
  obtain ⟨-, hholds, hlo, -, h0, h1, -, hparse⟩ := h
  obtain ⟨hl, hr⟩ := id ha
  have hkept : ∀ i, i < 2 → Memory.read e'.buf i = Memory.read e.buf i := fun i hi => by
    rw [hr, if_neg (by omega)]
  refine ⟨hwf, ?_, by omega, hlen, ?_, ?_, hflags, ?_⟩
  · rw [hl]
    exact Memory.holdsBelow_append hholds hr
  · rw [hkept 0 (by omega), h0]
  · rw [hkept 1 (by omega), h1]
  · obtain ⟨l₀, hl₀, hcrc₀⟩ := Option.map_eq_some_iff.mp hparse
    have hdrop : (Memory.contents e'.buf e'.len).drop 2 = (Memory.contents e.buf e.len).drop 2 ++ w := by
      rw [ha.contents, List.drop_append_of_le_length (by rw [Memory.contents_length hholds]; exact hlo)]
    rw [hdrop, wireParse_append w hl₀, hw, hcrc, ← hcrc₀, ← crcFold_append]
    rfl

theorem EncUnit.Inv.appendEscaped {c : Config} {e : EncUnit} {b : Byte} (h : e.Inv c)
    (fits : e.len + (esc b).length ≤ c.nEnc) : (e.appendEscaped b).Inv c := by
  obtain ⟨hwf, -, -, -, -, -, hflags, -⟩ := id h
  obtain ⟨hwire, hcrc, -, -⟩ := EncUnit.appendEscaped_spec b e
  exact h.appendedWire hwire (Memory.wf_writeList _ hwf _) fits hflags (wireParse_esc b) hcrc

theorem EncUnit.Inv.seal {c : Config} {e : EncUnit} (h : e.Inv c) (fits : e.len + e.completeNeed ≤ c.nEnc) :
    e.seal.Inv c := by
  obtain ⟨hwf, -⟩ := id h
  obtain ⟨hwire, hcrc, hcomplete, -⟩ := e.seal_spec
  have hwf' : Memory.wf e.seal.buf = true :=
    Memory.wf_write (Memory.wf_writeList _ (Memory.wf_writeList _ hwf _) _) _ _
  have hlen : e.seal.len = e.len + e.completeNeed := by
    rw [hwire.1, EncUnit.completeNeed]
    simp
    omega
  exact h.appendedWire hwire hwf' (hlen ▸ fits) (fun _ => hcomplete) (wireParse_esc_esc_stop _ _) hcrc

theorem EncUnit.Moves.inv {c : Config} {e e' : EncUnit} {i : Instr} {r : Option Response} (hc : c.admitted = true)
    (h : e.Inv c) (hm : e.Moves c.nEnc i r e') : e'.Inv c := by
  cases hm with
  | new => exact EncUnit.reset_inv hc
  | append b _ fits => exact h.appendEscaped fits
  | sealed fits => exact h.seal fits
  | appendFull | completeFull | other => exact h

/-! ### DEC's invariant (R32, R35) -/

theorem DecUnit.reset_inv (c : Config) : DecUnit.reset.Inv c :=
  ⟨rfl, Memory.holdsBelow_nil, Nat.zero_le _, rfl, nofun⟩

theorem DecUnit.Inv.goTo {c : Config} {d : DecUnit} {p : ParserState} (h : d.Inv c) (hp : p ≠ .reserved) :
    ({ d with state := p } : DecUnit).Inv c := by
  obtain ⟨hwf, hholds, hlen, hcrc, -⟩ := h
  exact ⟨hwf, hholds, hlen, hcrc, hp⟩

theorem DecUnit.logicalAppend_wf {nDec : Nat} {v : Byte} {d d' : DecUnit} (hd : d.logicalAppend nDec v = some d')
    (h : Memory.wf d.buf = true) : Memory.wf d'.buf = true := by
  unfold DecUnit.logicalAppend at hd
  split_ifs at hd
  cases hd
  exact Memory.wf_write h d.len v

/-- An append that succeeded had room, and appended. -/
theorem DecUnit.logicalAppend_some {nDec : Nat} {v : Byte} {d d' : DecUnit} (hd : d.logicalAppend nDec v = some d') :
    d.len + 1 ≤ nDec ∧ d.Appended v d' ∧ d'.state = d.state := by
  rcases Nat.lt_or_ge d.len nDec with h | h
  · obtain ⟨d₁, hd₁, hspec⟩ := DecUnit.logicalAppend_of_fits (v := v) h
    cases hd.symm.trans hd₁
    exact ⟨h, hspec⟩
  · rw [DecUnit.logicalAppend_of_full h] at hd
    cases hd

theorem DecUnit.Appended.holdsBelow {v : Byte} {d d' : DecUnit} (ha : d.Appended v d')
    (h : Memory.holdsBelow d.buf d.len) : Memory.holdsBelow d'.buf d'.len := by
  obtain ⟨hl, -, hr⟩ := ha
  intro i
  rw [hr, hl]
  by_cases hi : i = d.len
  · simp [hi]
  · rw [if_neg hi, h i, decide_eq_decide]
    omega

theorem DecUnit.Inv.logicalAppend {c : Config} {d d' : DecUnit} {v : Byte} (h : d.Inv c)
    (hd : d.logicalAppend c.nDec v = some d') : d'.Inv c := by
  obtain ⟨hwf, hholds, -, hcrc, hstate⟩ := h
  obtain ⟨hfits, ha, hs⟩ := DecUnit.logicalAppend_some hd
  obtain ⟨hl, hcrc', -⟩ := id ha
  refine ⟨DecUnit.logicalAppend_wf hd hwf, ha.holdsBelow hholds, hl ▸ hfits, ?_, hs ▸ hstate⟩
  rw [hcrc', ha.contents, crcFold_snoc, hcrc]

theorem DecUnit.Moves.inv {c : Config} {d d' : DecUnit} (h : d.Inv c) (hm : d.Moves c.nDec d') : d'.Inv c := by
  cases hm with
  | same => exact h
  | goTo p hp => exact h.goTo hp
  | restart p hp => exact (DecUnit.reset_inv c).goTo hp
  | append v hd => exact (h.logicalAppend hd).goTo nofun

/-! ### The machine's invariant: reset meets it and every step keeps it -/

/-- Settles O6, unit by unit. -/
theorem resetMeetsInvariant : Obligations.ResetMeetsInvariant :=
  fun c hc => ⟨hc, EncUnit.reset_inv hc, DecUnit.reset_inv c⟩

theorem exec_keeps_inv {i : Instr} {s t : State} (hs : s.Inv) (h : exec i s = .next t) : t.Inv := by
  obtain ⟨hc, henc, hdec⟩ := hs
  rw [State.Inv, exec_config h]
  exact ⟨hc, (exec_enc_moves h).inv hc henc, (exec_dec_moves h).inv hdec⟩

theorem runEvent_keeps_inv {ev : HostEvent} {s t : State} (hs : s.Inv) (h : runEvent ev s = .next t) : t.Inv := by
  cases ev with
  | command w => exact exec_keeps_inv (s := s.tick) hs h
  | reset =>
    cases h
    exact resetMeetsInvariant s.config hs.1

/-- Settles O7, by the two cases of the queue and the moves of each unit. -/
theorem stepKeepsInvariant : Obligations.StepKeepsInvariant := by
  intro s t hs h
  cases hp : s.pending with
  | nil =>
    rw [step_of_idle hs.1 hp] at h
    cases h
    exact hs
  | cons ev rest =>
    rw [step_of_pending hs.1 hp] at h
    exact runEvent_keeps_inv (s := { s with pending := rest }) hs h

/-! ### Runs from reset -/

theorem runEvent_completes {ev : HostEvent} {s : State} (h : s.dec.state ≠ .reserved) :
    ∃ t, runEvent ev s = .next t := by
  cases ev with
  | command w => exact (exec_decodeCommand_cases w s.tick).resolve_right fun hf => h hf.1
  | reset => exact ⟨_, rfl⟩

theorem step_completes {s : State} (hs : s.Inv) : ∃ t, step s = .next t := by
  obtain ⟨hc, -, -, -, -, -, hstate⟩ := hs
  cases hp : s.pending with
  | nil => exact ⟨s, step_of_idle hc hp⟩
  | cons ev rest =>
    rw [step_of_pending hc hp]
    exact runEvent_completes hstate

theorem run_succ_of_next {s u : State} (h : step s = .next u) (n : Nat) :
    Host.Core.run Sys2Proof.core (n + 1) s = Host.Core.run Sys2Proof.core n u := by
  have hcore : Sys2Proof.core.step s = .next u := h
  simp only [Host.Core.run, hcore]

theorem run_completes_of_inv (n : Nat) {s : State} (hs : s.Inv) :
    ∃ t, Host.Core.run Sys2Proof.core n s = .next t ∧ t.Inv := by
  induction n generalizing s with
  | zero => exact ⟨s, rfl, hs⟩
  | succ n ih =>
    obtain ⟨u, hu⟩ := step_completes hs
    obtain ⟨t, ht, hinv⟩ := ih (stepKeepsInvariant s u hs hu)
    exact ⟨t, (run_succ_of_next hu n).trans ht, hinv⟩

/-- Settles O8: the reset state with any queue meets the invariant, because the queue is no part of it. -/
theorem everyRunFromResetCompletes : Obligations.EveryRunFromResetCompletes :=
  fun c _ n hc => run_completes_of_inv n (resetMeetsInvariant c hc)

end Sys2Proof.Machine

/-! Proofs for spec/20_memory.md: the queue runs in issue order and no command reads it; a unit's view of a run is the
run of its own words; and what DEC makes of a frame that fits, byte by byte, for two frames in a row. -/

namespace Sys2Proof.Machine

/-! ### The queue (R60) -/

/-- An instruction neither reads nor writes the queue. -/
theorem exec_withPending {i : Instr} {s t : State} (h : exec i s = .next t) (q : List HostEvent) :
    exec i { s with pending := q } = .next { t with pending := q } := by
  cases hi : i.isEnc with
  | true =>
    have ht := Host.Outcome.next.inj (h.symm.trans (exec_enc_local hi h rfl rfl))
    exact (exec_enc_local (s' := { s with pending := q }) hi h rfl rfl).trans
      (congrArg (fun u : State => (.next { u with pending := q } : StepOutcome)) ht.symm)
  | false =>
    have ht := Host.Outcome.next.inj (h.symm.trans (exec_dec_local hi h rfl rfl))
    exact (exec_dec_local (s' := { s with pending := q }) hi h rfl rfl).trans
      (congrArg (fun u : State => (.next { u with pending := q } : StepOutcome)) ht.symm)

theorem exec_pending {i : Instr} {s t : State} (h : exec i s = .next t) : t.pending = s.pending := by
  cases hi : i.isEnc with
  | true =>
    obtain ⟨-, -, hpending, -⟩ := exec_onlyEncChanges hi h
    exact hpending
  | false =>
    obtain ⟨-, -, hpending, -⟩ := exec_onlyDecChanges hi h
    exact hpending

/-- A step with a command queued first issues it and leaves the rest of the queue. -/
theorem step_of_queued_command {w : CommandWord} {s u : State} (ha : s.config.admitted = true)
    (h : issue w s = .next u) (q : List HostEvent) :
    step { s with pending := .command w :: q } = .next { u with pending := q } :=
  (step_of_pending (s := { s with pending := .command w :: q }) ha rfl).trans (exec_withPending (s := s.tick) h q)

/-- The words of a run, queued before what the queue holds, run in as many steps. -/
theorem run_queued_of_runWords {ws : List CommandWord} {s t : State} {rs : List Response}
    (ha : s.config.admitted = true) (h : runWords ws s = some (rs, t)) :
    Host.Core.run Sys2Proof.core ws.length { s with pending := ws.map .command ++ s.pending } = .next t := by
  induction ws generalizing s rs with
  | nil => cases h; rfl
  | cons w ws ih =>
    obtain ⟨u, rs', hu, hrest, -⟩ := runWords_cons_some h
    have hconfig : u.config = s.config := exec_config (s := s.tick) hu
    have hpending : u.pending = s.pending := exec_pending (s := s.tick) hu
    calc Host.Core.run Sys2Proof.core (ws.length + 1)
          { s with pending := .command w :: (ws.map .command ++ s.pending) }
      _ = Host.Core.run Sys2Proof.core ws.length { u with pending := ws.map .command ++ s.pending } :=
          run_succ_of_next (step_of_queued_command ha hu _) _
      _ = .next t := hpending ▸ ih (hconfig ▸ ha) hrest

/-- Settles O9, by induction on the words, at a state whose queue is `rest`. -/
theorem stepsIssueInOrder : Obligations.StepsIssueInOrder :=
  fun _ rest s _ _ ha h => run_queued_of_runWords (s := { s with pending := rest }) ha h

/-! ### One response for each command (R84) -/

/-- The case of `exec_resp_isSome` that DEC.FEED is reduced to. -/
theorem exec_resp_isSome_of_ne_decFeed {i : Instr} {s t : State} (hf : ∀ b, i ≠ .decFeed b) (h : exec i s = .next t) :
    t.resp.isSome = true := by
  cases i with
  | encNew => cases h; rfl
  | encStart b | encAdd b => cases h; cases s.enc.protectedAppend s.config.nEnc b <;> rfl
  | encComplete => cases h; cases s.enc.completeFrame s.config.nEnc <;> rfl
  | decFeed b => exact absurd rfl (hf b)
  | decReset | decRsv2 | decRsv3 => cases h; rfl
  | feedSStart | feedSEscape | feedSStop | feedSOther | feedDStart | feedDEscape | feedDStop =>
    obtain ⟨-, rfl⟩ := State.inParserState_next h
    rfl
  | feedDOther b | feedEAny b =>
    obtain ⟨-, rfl⟩ := State.inParserState_next h
    cases s.dec.logicalAppend s.config.nDec _ <;> rfl
  | feedXRsv => cases h

theorem exec_resp_isSome {i : Instr} {s t : State} (h : exec i s = .next t) : t.resp.isSome = true := by
  by_cases hf : ∃ b, i = .decFeed b
  · obtain ⟨b, rfl⟩ := hf
    rw [exec_decFeed_eq_exec_decodeKey] at h
    exact exec_resp_isSome_of_ne_decFeed (decodeKey_ne_decFeed _) h
  · exact exec_resp_isSome_of_ne_decFeed (not_exists.mp hf) h

/-- The first word of a run that completes, with its one response. -/
theorem runWords_cons_response {w : CommandWord} {ws : List CommandWord} {s u : State} {rs : List Response}
    (h : runWords (w :: ws) s = some (rs, u)) :
    ∃ t r rs', issue w s = .next t ∧ t.resp = some r ∧ runWords ws t = some (rs', u) ∧ rs = r :: rs' := by
  obtain ⟨t, rs', ht, hrest, rfl⟩ := runWords_cons_some h
  obtain ⟨r, hr⟩ := Option.isSome_iff_exists.mp (exec_resp_isSome ht)
  exact ⟨t, r, rs', ht, hr, hrest, by rw [hr]; rfl⟩

theorem runWords_cons_of_response {w : CommandWord} {ws : List CommandWord} {s t u : State} {r : Response}
    {rs : List Response} (ht : issue w s = .next t) (hr : t.resp = some r) (h : runWords ws t = some (rs, u)) :
    runWords (w :: ws) s = some (r :: rs, u) := by
  rw [runWords_cons_of_next ht, h, hr]
  rfl

theorem runWords_length {ws : List CommandWord} {s t : State} {rs : List Response}
    (h : runWords ws s = some (rs, t)) : rs.length = ws.length := by
  induction ws generalizing s rs with
  | nil => cases h; rfl
  | cons w ws ih =>
    obtain ⟨u, r, rs', -, -, hrest, rfl⟩ := runWords_cons_response h
    exact congrArg (· + 1) (ih hrest)

/-! ### A unit's part of a run (R62) -/

/-- The words that `own` picks depend on what `view` shows of the state and no other word changes it. -/
structure OwnsView {α : Type} (own : CommandWord → Bool) (view : State → α) : Prop where
  issue_own : ∀ {w : CommandWord} {s s' t : State}, own w = true → view s' = view s → issue w s = .next t →
    ∃ t', issue w s' = .next t' ∧ view t' = view t ∧ t'.resp = t.resp
  issue_other : ∀ {w : CommandWord} {s t : State}, own w = false → issue w s = .next t → view t = view s

/-- What the ENC commands depend on. -/
def State.encView (s : State) : Config × EncUnit := (s.config, s.enc)

/-- What the DEC commands depend on. -/
def State.decView (s : State) : Config × DecUnit := (s.config, s.dec)

theorem encWords_own_encView : OwnsView isEncWord State.encView where
  issue_own {w s s' t} hw hview h := by
    obtain ⟨hc, he⟩ := Prod.mk.inj hview
    obtain ⟨-, t', ht', henc, hresp⟩ := (unitsShareNothing w s.tick s'.tick t h hc).1 hw he
    exact ⟨t', ht', Prod.ext ((exec_config ht').trans (hc.trans (exec_config h).symm)) henc, hresp⟩
  issue_other {w s t} hw h := by
    obtain ⟨⟨hc, he, -⟩, -⟩ := (unitsShareNothing w s.tick s.tick t h rfl).2 hw rfl
    exact Prod.ext hc he

theorem decWords_own_decView : OwnsView (fun w => !isEncWord w) State.decView where
  issue_own {w s s' t} hw hview h := by
    obtain ⟨hc, hd⟩ := Prod.mk.inj hview
    obtain ⟨-, t', ht', hdec, hresp⟩ := (unitsShareNothing w s.tick s'.tick t h hc).2 (by simpa using hw) hd
    exact ⟨t', ht', Prod.ext ((exec_config ht').trans (hc.trans (exec_config h).symm)) hdec, hresp⟩
  issue_other {w s t} hw h := by
    obtain ⟨⟨hc, hd, -⟩, -⟩ := (unitsShareNothing w s.tick s.tick t h rfl).1 (by simpa using hw) rfl
    exact Prod.ext hc hd

/-- The run of a view's own words alone, from any state that shows the same, gives the responses those words had in the
whole run and ends showing the same. -/
theorem OwnsView.runWords_filter {α : Type} {own : CommandWord → Bool} {view : State → α} (hv : OwnsView own view)
    {ws : List CommandWord} {s s' t : State} {rs : List Response} (h : runWords ws s = some (rs, t))
    (hs : view s' = view s) :
    ∃ t', runWords (ws.filter own) s' = some (((ws.zip rs).filter (fun x => own x.1)).map Prod.snd, t') ∧
      view t' = view t := by
  induction ws generalizing s s' rs with
  | nil => cases h; exact ⟨s', rfl, hs⟩
  | cons w ws ih =>
    obtain ⟨u, r, rs', hu, hr, hrest, rfl⟩ := runWords_cons_response h
    cases hw : own w with
    | true =>
      obtain ⟨u', hu', hview, hresp⟩ := hv.issue_own hw hs hu
      obtain ⟨t', ht', hend⟩ := ih hrest hview
      refine ⟨t', ?_, hend⟩
      simpa [hw] using runWords_cons_of_response hu' (hresp.trans hr) ht'
    | false =>
      obtain ⟨t', ht', hend⟩ := ih hrest (hs.trans (hv.issue_other hw hu).symm)
      exact ⟨t', by simpa [hw] using ht', hend⟩

/-- Settles O54: each unit's words own its view. -/
theorem interleavingIsHarmless : Obligations.InterleavingIsHarmless := by
  intro ws s t rs h
  obtain ⟨te, hte, henc⟩ := encWords_own_encView.runWords_filter h rfl
  obtain ⟨td, htd, hdec⟩ := decWords_own_decView.runWords_filter h rfl
  exact ⟨runWords_length h, ⟨te, hte, congrArg Prod.snd henc⟩, ⟨td, htd, congrArg Prod.snd hdec⟩⟩

/-! ### Feeding bytes -/

theorem decodeCommand_feedWord : ∀ b : Byte, decodeCommand (commandWord 0b1#1 0b01#2 b) = .decFeed b := by decide

theorem issue_feedWord (b : Byte) (s : State) : issue (commandWord 0b1#1 0b01#2 b) s = execDecFeed b s.tick := by
  rw [issue, decodeCommand_feedWord]
  rfl

theorem feedWords_append (bs bs' : List Byte) : feedWords (bs ++ bs') = feedWords bs ++ feedWords bs' :=
  List.map_append

/-- A run of bytes that goes on after its first byte. -/
theorem runWords_feed_cons {b : Byte} {bs : List Byte} {s t u : State} {r : Response} {rs : List Response}
    (ht : execDecFeed b s.tick = .next t) (hr : t.resp = some r) (h : runWords (feedWords bs) t = some (rs, u)) :
    runWords (feedWords (b :: bs)) s = some (r :: rs, u) :=
  runWords_cons_of_response ((issue_feedWord b s).trans ht) hr h

theorem runWords_feed_append {bs bs' : List Byte} {s t u : State} {rs rs' : List Response}
    (h : runWords (feedWords bs) s = some (rs, t)) (h' : runWords (feedWords bs') t = some (rs', u)) :
    runWords (feedWords (bs ++ bs')) s = some (rs ++ rs', u) := by
  rw [feedWords_append, runWords_append h, h']
  rfl

/-! ### The bytes of a frame that fits (R72, R172, R176 to R185) -/

/-- `t` is `s` with the logical bytes `l` appended to the partial frame; ENC and the build parameters are as before. -/
structure State.Accumulated (l : List Byte) (s t : State) : Prop where
  len : t.dec.len = s.dec.len + l.length
  crc : t.dec.crc = crcFold s.dec.crc l
  raw : t.rawBytes = s.rawBytes ++ l
  enc : t.enc = s.enc
  config : t.config = s.config

theorem State.accumulated_nil {s t : State} {p : ParserState} (hd : t.dec = { s.dec with state := p })
    (he : t.enc = s.enc) (hc : t.config = s.config) : State.Accumulated [] s t := by
  refine ⟨?_, ?_, ?_, he, hc⟩ <;> simp [State.rawBytes, hd, crcFold]

theorem State.Accumulated.trans {l l' : List Byte} {s t u : State} (h : State.Accumulated l s t)
    (h' : State.Accumulated l' t u) : State.Accumulated (l ++ l') s u where
  len := by rw [h'.len, h.len, List.length_append, Nat.add_assoc]
  crc := by rw [h'.crc, h.crc, crcFold_append]
  raw := by rw [h'.raw, h.raw, List.append_assoc]
  enc := h'.enc.trans h.enc
  config := h'.config.trans h.config

theorem State.accumulated_tick (s : State) : State.Accumulated [] s s.tick :=
  State.accumulated_nil (p := s.dec.state) rfl rfl rfl

/-- A row that appends (R182, R185), with room. -/
theorem State.finishDecAppend_of_fits {s : State} (v : Byte) (h : s.dec.len + 1 ≤ s.config.nDec) :
    ∃ t, s.finishDecAppend (s.dec.logicalAppend s.config.nDec v) .data = t ∧ t.resp = some okResponse ∧
      t.dec.state = .data ∧ State.Accumulated [v] s t := by
  obtain ⟨d, hd, happ, -⟩ := DecUnit.logicalAppend_of_fits (v := v) h
  obtain ⟨hlen, hcrc, -⟩ := id happ
  rw [hd]
  exact ⟨_, rfl, rfl, rfl, hlen, hcrc, happ.contents, rfl, rfl⟩

/-- R182: a byte that is no control byte is appended as it is. -/
theorem execDecFeed_plain {s : State} {b : Byte} (hs : s.dec.state = .data) (hb : isCtrl b = false)
    (h : s.dec.len + 1 ≤ s.config.nDec) :
    ∃ t, execDecFeed b s = .next t ∧ t.resp = some okResponse ∧ t.dec.state = .data ∧ State.Accumulated [b] s t := by
  obtain ⟨hstart, hescape, hstop⟩ := not_isCtrl_ne hb
  obtain ⟨t, rfl, ht⟩ := State.finishDecAppend_of_fits b h
  refine ⟨_, ?_, ht⟩
  rw [execDecFeed_of_data hs, if_neg hstart, if_neg hescape, if_neg hstop]

/-- R181: ESCAPE opens a pair. -/
theorem execDecFeed_escape {s : State} (hs : s.dec.state = .data) :
    ∃ t, execDecFeed escapeByte s = .next t ∧ t.resp = some okResponse ∧ t.dec.state = .escapedData ∧
      State.Accumulated [] s t :=
  ⟨_, execDecFeed_of_data hs escapeByte, rfl, rfl, State.accumulated_nil rfl rfl rfl⟩

/-- R185: the byte after ESCAPE is appended complemented. -/
theorem execDecFeed_cpl {s : State} (b : Byte) (hs : s.dec.state = .escapedData)
    (h : s.dec.len + 1 ≤ s.config.nDec) :
    ∃ t, execDecFeed (cpl b) s = .next t ∧ t.resp = some okResponse ∧ t.dec.state = .data ∧
      State.Accumulated [b] s t := by
  obtain ⟨t, rfl, ht⟩ := State.finishDecAppend_of_fits b h
  refine ⟨_, ?_, ht⟩
  rw [execDecFeed_of_escapedData hs, unesc_cpl]

/-- The wire form of one logical byte is one byte or an ESCAPE pair, and appends that byte. -/
theorem runWords_feed_esc {s : State} (b : Byte) (hs : s.dec.state = .data) (h : s.dec.len + 1 ≤ s.config.nDec) :
    ∃ t, runWords (feedWords (esc b)) s = some (List.replicate (esc b).length okResponse, t) ∧
      t.dec.state = .data ∧ State.Accumulated [b] s t := by
  rcases esc_cases b with ⟨-, he⟩ | ⟨hb, he⟩ <;> rw [he]
  · obtain ⟨t, ht, htr, hts, hta⟩ := execDecFeed_escape (s := s.tick) hs
    have hroom : t.dec.len + 1 ≤ t.config.nDec := by rw [hta.len, hta.config]; exact h
    obtain ⟨u, hu, hur, hus, hua⟩ := execDecFeed_cpl (s := t.tick) b hts hroom
    exact ⟨u, runWords_feed_cons ht htr (runWords_feed_cons hu hur rfl), hus,
      (s.accumulated_tick.trans hta).trans (t.accumulated_tick.trans hua)⟩
  · obtain ⟨t, ht, htr, hts, hta⟩ := execDecFeed_plain (s := s.tick) hs hb h
    exact ⟨t, runWords_feed_cons ht htr rfl, hts, s.accumulated_tick.trans hta⟩

/-- In Data, the wire form of logical bytes that fit appends them. -/
theorem runWords_feed_wireOf {s : State} (l : List Byte) (hs : s.dec.state = .data)
    (h : s.dec.len + l.length ≤ s.config.nDec) :
    ∃ t, runWords (feedWords (wireOf l)) s = some (List.replicate (wireOf l).length okResponse, t) ∧
      t.dec.state = .data ∧ State.Accumulated l s t := by
  induction l generalizing s with
  | nil => exact ⟨s, rfl, hs, State.accumulated_nil rfl rfl rfl⟩
  | cons b l ih =>
    rw [List.length_cons] at h
    obtain ⟨t, ht, hts, hta⟩ := runWords_feed_esc b hs (by omega)
    have hroom : t.dec.len + l.length ≤ t.config.nDec := by
      rw [hta.len, hta.config, List.length_singleton]
      omega
    obtain ⟨u, hu, hus, hua⟩ := ih hts hroom
    refine ⟨u, ?_, hus, hta.trans hua⟩
    rw [show wireOf (b :: l) = esc b ++ wireOf l from rfl, List.length_append, List.replicate_add]
    exact runWords_feed_append ht hu

/-! ### A whole frame (R72, R183) -/

/-- The wire bytes of a frame without its sync byte. -/
abbrev frameBytes (l : List Byte) : List Byte := startByte :: (wireOf l ++ [stopByte])

/-- The response at the STOP of a frame of the logical bytes `l`. -/
abbrev frameResponseOf (l : List Byte) : Response := frameResponse (decide (crcFold crcSeed l = 0x0000#16))

/-- The responses to the bytes of a frame that fits. -/
def frameResponses (l : List Byte) : List Response :=
  List.replicate (1 + (wireOf l).length) okResponse ++ [frameResponseOf l]

/-- `t` is `s` once a frame of the logical bytes `l` has been fed and handed over. -/
structure State.HandsOver (l : List Byte) (s t : State) : Prop where
  resp : t.resp = some (frameResponseOf l)
  raw : t.rawBytes = l
  len : t.dec.len = l.length
  state : t.dec.state = .start
  enc : t.enc = s.enc
  config : t.config = s.config

theorem State.HandsOver.handedOver {l : List Byte} {s t : State} (h : State.HandsOver l s t) :
    t.handedOver = some (l, decide (crcFold crcSeed l = 0x0000#16)) := by
  rw [State.handedOver, h.resp, h.raw]

/-- START in Start or in Data begins an empty frame (R171, R176, R180). -/
theorem execDecFeed_startByte {s : State} (hs : s.dec.state = .start ∨ s.dec.state = .data) :
    ∃ t, execDecFeed startByte s = .next t ∧ t.resp = some okResponse ∧
      t.dec = { DecUnit.reset with state := .data } ∧ t.enc = s.enc ∧ t.config = s.config := by
  rcases hs with hs | hs
  · exact ⟨_, execDecFeed_of_start hs startByte, rfl, rfl, rfl, rfl⟩
  · exact ⟨_, execDecFeed_of_data hs startByte, rfl, rfl, rfl, rfl⟩

/-- STOP in Data hands the partial frame over (R183). -/
theorem execDecFeed_stopByte {s : State} (hs : s.dec.state = .data) :
    ∃ t, execDecFeed stopByte s = .next t ∧ t.resp = some (frameResponse (crcZero s.dec.crc)) ∧
      t.dec.state = .start ∧ State.Accumulated [] s t :=
  ⟨_, execDecFeed_of_data hs stopByte, rfl, rfl, State.accumulated_nil rfl rfl rfl⟩

/-- A frame whose logical bytes fit is handed over at its STOP, from Start and from Data. -/
theorem runWords_feed_frameBytes {s : State} {l : List Byte} (hs : s.dec.state = .start ∨ s.dec.state = .data)
    (h : l.length ≤ s.config.nDec) :
    ∃ t, runWords (feedWords (frameBytes l)) s = some (frameResponses l, t) ∧ State.HandsOver l s t := by
  obtain ⟨a, ha, har, had, hae, hac⟩ := execDecFeed_startByte (s := s.tick) hs
  have hroom : a.dec.len + l.length ≤ a.config.nDec := by
    rw [had, hac]
    simpa [DecUnit.reset] using h
  obtain ⟨u, hu, hus, hua⟩ := runWords_feed_wireOf l (had ▸ rfl) hroom
  obtain ⟨t, ht, htr, hts, hta⟩ := execDecFeed_stopByte (s := u.tick) hus
  have hframe : State.Accumulated l a t := by
    simpa using hua.trans (u.accumulated_tick.trans hta)
  have hresp : t.resp = some (frameResponseOf l) := by
    rw [htr, State.tick_dec, hua.crc, had]
    rfl
  refine ⟨t, ?_, ?_⟩
  · rw [frameResponses, Nat.add_comm 1, List.replicate_succ, List.cons_append]
    exact runWords_feed_cons ha har (runWords_feed_append hu (runWords_feed_cons ht hresp rfl))
  · have hempty : a.rawBytes = [] ∧ a.dec.len = 0 := by simp [State.rawBytes, had, DecUnit.reset]
    exact ⟨hresp, by rw [hframe.raw, hempty.1, List.nil_append], by rw [hframe.len, hempty.2, Nat.zero_add], hts,
      hframe.enc.trans hae, hframe.config.trans hac⟩

/-- Of the responses to a frame that fits, the last alone is a FRAME. -/
theorem frameResponses_filter_frame (l : List Byte) :
    (frameResponses l).filter (fun r => decide (r.status = .frame)) = [frameResponseOf l] := by
  rw [frameResponses, List.filter_append, List.filter_replicate_of_neg (by decide)]
  rfl

/-- Settles O50: each frame is handed over by its own bytes, and the second starts from Start, where the first ended. -/
theorem orderPreserved : Obligations.OrderPreserved := by
  intro s l l' hs hl hl'
  obtain ⟨t, ht, hto⟩ := runWords_feed_frameBytes (.inl hs) hl
  obtain ⟨u, hu, huo⟩ := runWords_feed_frameBytes (s := t) (l := l') (.inl hto.state) (hto.config ▸ hl')
  refine ⟨t, u, frameResponses l, frameResponses l', ht, hto.handedOver, runWords_feed_append ht hu, huo.handedOver, ?_⟩
  rw [List.filter_append, frameResponses_filter_frame, frameResponses_filter_frame]
  rfl

end Sys2Proof.Machine

/-! Proofs for spec/30_encoding.md, the encodings: the fields of a word and of a key, the two tables row by row, and the
round trips through the decoder and the encoder; what a table word placed next runs; the statuses of each instruction;
the wire form of a frame, and the BUILD that emits it. -/

namespace Sys2Proof

/-! ### The fields of a command word and of a feed key (R80, R87) -/

@[simp] theorem wordData_commandWord (u : BitVec 1) (o : BitVec 2) (d : Byte) : wordData (commandWord u o d) = d :=
  BitVec.extractLsb'_append_eq_right

@[simp] theorem wordOp_commandWord (u : BitVec 1) (o : BitVec 2) (d : Byte) : wordOp (commandWord u o d) = u ++ o :=
  BitVec.extractLsb'_append_eq_left

/-- The mask of the operation map clears the data bits alone. -/
theorem commandWord_and_opMask (u : BitVec 1) (o : BitVec 2) (d : Byte) :
    commandWord u o d &&& 0x700#11 = commandWord u o 0x00#8 := by
  rw [commandWord, show 0x700#11 = BitVec.allOnes 3 ++ 0x00#8 from rfl, BitVec.and_append, BitVec.and_allOnes,
    BitVec.and_zero]
  rfl

theorem exists_eq_commandWord (w : CommandWord) : ∃ u o d, w = commandWord u o d := by
  refine ⟨w.extractLsb' 10 1, w.extractLsb' 8 2, w.extractLsb' 0 8, ?_⟩
  rw [commandWord, BitVec.extractLsb'_append_extractLsb'_eq_extractLsb' (by rfl),
    BitVec.extractLsb'_append_extractLsb'_eq_extractLsb' (by rfl), BitVec.extractLsb'_eq_self]

theorem feedKeyOf_keyState_keyData (k : FeedKey) : feedKeyOf (keyState k) (keyData k) = k := by
  rw [feedKeyOf, keyState, keyData, BitVec.extractLsb'_append_extractLsb'_eq_extractLsb' (by rfl),
    BitVec.extractLsb'_eq_self]

theorem Machine.ParserState.code_ofCode : ∀ c : BitVec 2, (Machine.ParserState.ofCode c).code = c := by decide

/-- Every key is that of a DEC.state and a byte. -/
theorem exists_eq_feedKeyOf (k : FeedKey) : ∃ (p : Machine.ParserState) (b : Byte), k = feedKeyOf p.code b := by
  refine ⟨.ofCode (keyState k), keyData k, ?_⟩
  rw [Machine.ParserState.code_ofCode, feedKeyOf_keyState_keyData]

/-! ### The operation map (R81) -/

/-- The eight rows of the operation map, whatever the data bits. -/
theorem decodeCommand_rows (d : Byte) :
    decodeCommand (commandWord 0b0#1 0b00#2 d) = .encNew ∧
    decodeCommand (commandWord 0b0#1 0b01#2 d) = .encStart d ∧
    decodeCommand (commandWord 0b0#1 0b10#2 d) = .encAdd d ∧
    decodeCommand (commandWord 0b0#1 0b11#2 d) = .encComplete ∧
    decodeCommand (commandWord 0b1#1 0b00#2 d) = .decReset ∧
    decodeCommand (commandWord 0b1#1 0b01#2 d) = .decFeed d ∧
    decodeCommand (commandWord 0b1#1 0b10#2 d) = .decRsv2 ∧
    decodeCommand (commandWord 0b1#1 0b11#2 d) = .decRsv3 := by
  simp only [decodeCommand, commandWord_and_opMask, wordData_commandWord]
  exact ⟨rfl, rfl, rfl, rfl, rfl, rfl, rfl, rfl⟩

/-- Settles O13: the rows of the operation map, and the three fields that make up every word. -/
theorem operationMap : Obligations.OperationMap :=
  ⟨decodeCommand_rows, rfl, rfl, rfl, rfl, rfl, exists_eq_commandWord⟩

/-! ### The feed-decode table (R87) -/

theorem decodeKey_start (b : Byte) : decodeKey (feedKeyOf Machine.ParserState.start.code b) =
    if b = Machine.startByte then .feedSStart else if b = Machine.escapeByte then .feedSEscape
    else if b = Machine.stopByte then .feedSStop else .feedSOther b := by
  rw [decodeKey, Machine.feedRow_start, keyData_feedKeyOf]
  split_ifs <;> rfl

theorem decodeKey_data (b : Byte) : decodeKey (feedKeyOf Machine.ParserState.data.code b) =
    if b = Machine.startByte then .feedDStart else if b = Machine.escapeByte then .feedDEscape
    else if b = Machine.stopByte then .feedDStop else .feedDOther b := by
  rw [decodeKey, Machine.feedRow_data, keyData_feedKeyOf]
  split_ifs <;> rfl

theorem decodeKey_escapedData (b : Byte) :
    decodeKey (feedKeyOf Machine.ParserState.escapedData.code b) = .feedEAny b := by
  rw [decodeKey, Machine.feedRow_escapedData, keyData_feedKeyOf]

theorem decodeKey_reserved (b : Byte) : decodeKey (feedKeyOf Machine.ParserState.reserved.code b) = .feedXRsv b := by
  rw [decodeKey, Machine.feedRow_reserved, keyData_feedKeyOf]

/-- Settles O14, one DEC.state at a time. -/
theorem feedKeyTable : Obligations.FeedKeyTable :=
  ⟨rfl, rfl, rfl, rfl,
    fun b => ⟨decodeKey_start b, decodeKey_data b, decodeKey_escapedData b, decodeKey_reserved b⟩, exists_eq_feedKeyOf⟩

/-- Settles O15, by running the decoder. -/
theorem specWordsDecode : Obligations.SpecWordsDecode := by
  unfold Obligations.SpecWordsDecode
  decide

/-! ### Decoding an encoding (R81, R85, R87) -/

/-- A byte that is no control byte passes the three rows tried before an "any other byte" row. -/
theorem decodeKey_other {b : Byte} (h : Machine.isCtrl b = false) :
    decodeKey (feedKeyOf Machine.ParserState.start.code b) = .feedSOther b ∧
    decodeKey (feedKeyOf Machine.ParserState.data.code b) = .feedDOther b := by
  obtain ⟨hstart, hescape, hstop⟩ := Machine.not_isCtrl_ne h
  rw [decodeKey_start, decodeKey_data]
  exact ⟨by rw [if_neg hstart, if_neg hescape, if_neg hstop], by rw [if_neg hstart, if_neg hescape, if_neg hstop]⟩

/-- Settles O11: instructions without an operand have one word each; the others keep their operand in the data bits. -/
theorem decodeEncodeRoundTrip : Obligations.DecodeEncodeRoundTrip := by
  intro i hi
  cases i with
  | encNew | encComplete | decReset | decRsv2 | decRsv3 => rfl
  | encStart b | encAdd b | decFeed b =>
    obtain ⟨-, hstart, hadd, -, -, hfeed, -⟩ := decodeCommand_rows b
    assumption
  | feedSStart | feedSEscape | feedSStop | feedDStart | feedDEscape | feedDStop => rfl
  | feedSOther b => exact (decodeKey_other (by simpa [Instr.wellFormed] using hi)).1
  | feedDOther b => exact (decodeKey_other (by simpa [Instr.wellFormed] using hi)).2
  | feedEAny b => exact decodeKey_escapedData b
  | feedXRsv b => exact decodeKey_reserved b

/-! ### Encoding a decoding (R82) -/

theorem withoutIgnoredBits_commandWord (u : BitVec 1) (o : BitVec 2) (d : Byte) :
    withoutIgnoredBits (.command (commandWord u o d)) =
      .command (commandWord u o (if u ++ o = 0b001#3 ∨ u ++ o = 0b010#3 ∨ u ++ o = 0b101#3 then d else 0x00#8)) := by
  rw [withoutIgnoredBits, wordOp_commandWord, commandWord_and_opMask]
  split_ifs <;> rfl

theorem encode_decodeCommand (w : CommandWord) :
    (decodeCommand w).wellFormed = true ∧ encode (decodeCommand w) = withoutIgnoredBits (.command w) := by
  have hop : ∀ o : BitVec 2, o = 0b00#2 ∨ o = 0b01#2 ∨ o = 0b10#2 ∨ o = 0b11#2 := by decide
  obtain ⟨u, o, d, rfl⟩ := exists_eq_commandWord w
  rw [withoutIgnoredBits_commandWord]
  obtain ⟨hnew, hstart, hadd, hcomplete, hreset, hfeed, hrsv2, hrsv3⟩ := decodeCommand_rows d
  rcases BitVec.eq_zero_or_eq_one u with rfl | rfl
  · rcases hop o with rfl | rfl | rfl | rfl
    · rw [hnew]; exact ⟨rfl, rfl⟩
    · rw [hstart]; exact ⟨rfl, rfl⟩
    · rw [hadd]; exact ⟨rfl, rfl⟩
    · rw [hcomplete]; exact ⟨rfl, rfl⟩
  · rcases hop o with rfl | rfl | rfl | rfl
    · rw [hreset]; exact ⟨rfl, rfl⟩
    · rw [hfeed]; exact ⟨rfl, rfl⟩
    · rw [hrsv2]; exact ⟨rfl, rfl⟩
    · rw [hrsv3]; exact ⟨rfl, rfl⟩

theorem encode_decodeKey (k : FeedKey) :
    (decodeKey k).wellFormed = true ∧ encode (decodeKey k) = .feedKey k := by
  obtain ⟨p, b, rfl⟩ := exists_eq_feedKeyOf k
  cases p with
  | start | data =>
    cases hb : Machine.isCtrl b with
    | true => obtain rfl | rfl | rfl := (Machine.isCtrl_iff b).mp hb <;> exact ⟨rfl, rfl⟩
    | false =>
      obtain ⟨hstart, hdata⟩ := decodeKey_other hb
      simp only [hstart, hdata]
      exact ⟨by simp [Instr.wellFormed, hb], rfl⟩
  | escapedData => rw [decodeKey_escapedData]; exact ⟨rfl, rfl⟩
  | reserved => rw [decodeKey_reserved]; exact ⟨rfl, rfl⟩

/-- Settles O12: a command word by its row of the operation map, a key by its row of the feed table. -/
theorem encodeDecodeRoundTrip : Obligations.EncodeDecodeRoundTrip
  | .command w => encode_decodeCommand w
  | .feedKey k => encode_decodeKey k

end Sys2Proof

namespace Sys2Proof.Machine

/-! ### A table word placed for the next step (R80, R87) -/

/-- A feed key of ten bits, placed with its DEC.state. -/
theorem step_withFetchWord_key {s : State} (ha : s.config.admitted = true) (w : Nat) :
    step (s.withFetchWord 10 w) = exec (decodeKey (BitVec.ofNat 10 w))
      { s with
        dec := { s.dec with state := ParserState.ofCode (keyState (BitVec.ofNat 10 w)) }, epoch := s.epoch + 1 } := by
  obtain ⟨hcommand, -⟩ := stepRunsDecodedCommand
  refine (hcommand (s.withFetchWord 10 w) (commandWord 0b1#1 0b01#2 (keyData (BitVec.ofNat 10 w))) s.pending ha
    rfl).trans ?_
  rw [decode, decodeCommand_feedWord, exec_decFeed_eq_exec_decodeKey]
  have hkey : ∀ k : FeedKey, feedKeyOf (ParserState.ofCode (keyState k)).code (keyData k) = k := fun k => by
    rw [ParserState.code_ofCode, feedKeyOf_keyState_keyData]
  exact congrArg (fun k => exec (decodeKey k) _) (hkey (BitVec.ofNat 10 w))

/-- A word of any other width, placed as a command word. -/
theorem step_withFetchWord_command {s : State} {nbits : Nat} (hn : nbits ≠ 10) (ha : s.config.admitted = true)
    (w : Nat) : step (s.withFetchWord nbits w) =
      exec (decodeCommand (BitVec.ofNat 11 w)) { s with epoch := s.epoch + 1 } := by
  have hplace : s.withFetchWord nbits w = { s with pending := .command (BitVec.ofNat 11 w) :: s.pending } := if_neg hn
  obtain ⟨hcommand, -⟩ := stepRunsDecodedCommand
  rw [hplace]
  exact hcommand { s with pending := .command (BitVec.ofNat 11 w) :: s.pending } _ s.pending ha rfl

theorem decodeTableWord_key {w : Nat} {i : Instr} (h : decodeTableWord 10 w = some i) :
    i = decodeKey (BitVec.ofNat 10 w) := by
  rw [decodeTableWord, if_pos rfl, decodeKeyNumber] at h
  split_ifs at h <;> cases h
  rfl

theorem decodeTableWord_command {nbits w : Nat} {i : Instr} (hn : nbits ≠ 10) (h : decodeTableWord nbits w = some i) :
    i = decodeCommand (BitVec.ofNat 11 w) := by
  rw [decodeTableWord, if_neg hn, decodeCommandNumber] at h
  split_ifs at h <;> cases h
  rfl

/-- Settles O5: a feed key is run by DEC.FEED, which selects its row because DEC.state is the one it carries; every
other word is issued as it is. -/
theorem tableWordRunsNext : Obligations.TableWordRunsNext := by
  intro s nbits w i ha hi
  by_cases hn : nbits = 10
  · subst hn
    rw [decodeTableWord_key hi]
    exact ⟨_, fun h => absurd rfl h, fun _ => rfl, step_withFetchWord_key ha w⟩
  · rw [decodeTableWord_command hn hi]
    exact ⟨_, fun _ => rfl, fun h => absurd h hn, step_withFetchWord_command hn ha w⟩

/-! ### Every command completes, with a status of its own (R83, R84, R242) -/

/-- Settles O56: the one command word that can stop is DEC.FEED in DEC.state 0b11. -/
theorem everyCommandAccepted : Obligations.EveryCommandAccepted :=
  fun w s h => (exec_decodeCommand_cases w s).resolve_right fun hf => h hf.1

/-- Settles O40: a row's arm looks at DEC.state first. -/
theorem feedRowNeedsItsState : Obligations.FeedRowNeedsItsState := by
  intro s b
  simp only [List.forall_mem_cons, List.not_mem_nil, false_implies, implies_true, and_true]
  exact ⟨fun h => ⟨State.inParserState_of_ne h, State.inParserState_of_ne h, State.inParserState_of_ne h,
      State.inParserState_of_ne h⟩,
    fun h => ⟨State.inParserState_of_ne h, State.inParserState_of_ne h, State.inParserState_of_ne h,
      State.inParserState_of_ne h⟩,
    fun h => State.inParserState_of_ne h⟩

/-- The statuses an instruction can respond with (R84); a feed row's are those of its rule (R176 to R186). -/
def statuses : Instr → List Status
  | .encNew | .encStart _ | .encAdd _ | .encComplete => [.ok, .cap]
  | .decReset => [.ok]
  | .decFeed _ => [.ok, .frame, .cap]
  | .decRsv2 | .decRsv3 => [.illegal]
  | .feedSStart | .feedSEscape | .feedSStop | .feedSOther _ | .feedDStart | .feedDEscape => [.ok]
  | .feedDStop => [.frame]
  | .feedDOther _ | .feedEAny _ => [.ok, .cap]
  | .feedXRsv _ => []

/-- A response with a status of the instruction's own, and with `fvalid` 0 unless that status is FRAME. -/
def RespondsAs (i : Instr) (o : Option Response) : Prop :=
  ∃ r, o = some r ∧ (r.status ≠ .frame → r.fvalid = false) ∧ r.status ∈ statuses i

theorem respondsAs_of_mem {i : Instr} {st : Status} (h : st ∈ statuses i) : RespondsAs i (some ⟨st, false⟩) :=
  ⟨_, rfl, fun _ => rfl, h⟩

theorem statuses_of_isEnc {i : Instr} (hi : i.isEnc = true) : statuses i = [.ok, .cap] := by
  cases i <;> cases hi <;> rfl

theorem finishEnc_respondsAs {i : Instr} (hi : i.isEnc = true) (s : State) (q : Option EncUnit) :
    RespondsAs i (s.finishEnc q).resp := by
  cases q with
  | some e => exact respondsAs_of_mem (by simp [statuses_of_isEnc hi])
  | none => exact respondsAs_of_mem (by simp [statuses_of_isEnc hi])

/-- The case of `exec_respondsAs` that DEC.FEED is reduced to. -/
theorem exec_respondsAs_of_ne_decFeed {i : Instr} {s t : State} (hf : ∀ b, i ≠ .decFeed b) (h : exec i s = .next t) :
    RespondsAs i t.resp := by
  cases i with
  | encNew | encStart | encAdd | encComplete => cases h; exact finishEnc_respondsAs rfl _ _
  | decFeed b => exact absurd rfl (hf b)
  | decReset | decRsv2 | decRsv3 => cases h; exact respondsAs_of_mem (List.mem_singleton_self _)
  | feedSStart | feedSEscape | feedSStop | feedSOther | feedDStart | feedDEscape =>
    obtain ⟨-, rfl⟩ := State.inParserState_next h
    exact respondsAs_of_mem (List.mem_singleton_self _)
  | feedDStop =>
    obtain ⟨-, rfl⟩ := State.inParserState_next h
    exact ⟨_, rfl, fun hne => absurd rfl hne, List.mem_singleton_self _⟩
  | feedDOther b | feedEAny b =>
    obtain ⟨-, rfl⟩ := State.inParserState_next h
    cases s.dec.logicalAppend s.config.nDec _ with
    | some d => exact respondsAs_of_mem (by simp [statuses])
    | none => exact respondsAs_of_mem (by simp [statuses])
  | feedXRsv => cases h

/-- DEC.FEED has the statuses of all its rows. -/
theorem statuses_decodeKey_subset (k : FeedKey) (b : Byte) : statuses (decodeKey k) ⊆ statuses (.decFeed b) := by
  unfold decodeKey
  cases feedRow k <;> simp [statuses]

theorem exec_respondsAs {i : Instr} {s t : State} (h : exec i s = .next t) : RespondsAs i t.resp := by
  by_cases hf : ∃ b, i = .decFeed b
  · obtain ⟨b, rfl⟩ := hf
    rw [exec_decFeed_eq_exec_decodeKey] at h
    obtain ⟨r, hr, hfv, hst⟩ := exec_respondsAs_of_ne_decFeed (decodeKey_ne_decFeed _) h
    exact ⟨r, hr, hfv, statuses_decodeKey_subset _ b hst⟩
  · exact exec_respondsAs_of_ne_decFeed (not_exists.mp hf) h

@[simp] theorem Response.word_status (r : Response) : r.word.extractLsb' 0 2 = r.status.code :=
  BitVec.extractLsb'_append_eq_right

@[simp] theorem Response.word_fvalid (r : Response) : r.word.getLsbD 2 = r.fvalid :=
  BitVec.getLsbD_append.trans (by simp)

/-- Settles O55: the table of statuses, and the two fields of the response word. -/
theorem responsesByCommand : Obligations.ResponsesByCommand := by
  refine ⟨fun w s t h => ?_, fun fv => ⟨?_, ?_, ?_, ?_⟩, Response.word_fvalid⟩
  · obtain ⟨r, hr, hfv, hst⟩ := exec_respondsAs h
    refine ⟨r, hr, hfv, fun hw => ?_, fun hi => ?_, fun b hi => ?_, fun hi => ?_⟩
    · rw [isEncWord_eq_isEnc_decodeCommand] at hw
      rw [decode, statuses_of_isEnc hw] at hst
      simpa using hst
    · rw [hi] at hst
      simpa [statuses] using hst
    · rw [hi] at hst
      simpa [statuses] using hst
    · rcases hi with hi | hi <;> simpa [hi, statuses] using hst
  all_goals exact Response.word_status _

/-! ### The wire form of logical bytes and of a frame (R72, R73, R76) -/

@[simp] theorem wireOf_nil : wireOf [] = [] := rfl

@[simp] theorem wireOf_cons (b : Byte) (l : List Byte) : wireOf (b :: l) = esc b ++ wireOf l := rfl

@[simp] theorem wireOf_append (l l' : List Byte) : wireOf (l ++ l') = wireOf l ++ wireOf l' := List.flatMap_append

theorem length_wireOf (l : List Byte) : (wireOf l).length = (l.map (fun b => (esc b).length)).sum := List.length_flatMap

theorem length_le_length_wireOf (l : List Byte) : l.length ≤ (wireOf l).length := by
  induction l with
  | nil => exact Nat.le_refl 0
  | cons b l ih =>
    have := esc_length_pos b
    rw [wireOf_cons, List.length_append, List.length_cons]
    omega

theorem length_wireOf_le (l : List Byte) : (wireOf l).length ≤ 2 * l.length := by
  induction l with
  | nil => exact Nat.le_refl 0
  | cons b l ih =>
    have := esc_length_le b
    rw [wireOf_cons, List.length_append, List.length_cons]
    omega

theorem frameWire_eq_cons (c : Byte) (p : List Byte) :
    frameWire c p = syncByte :: startByte :: (wireOf (frameLogical c p) ++ [stopByte]) := rfl

theorem length_frameWire (c : Byte) (p : List Byte) :
    (frameWire c p).length = 3 + (wireOf (frameLogical c p)).length := by
  simp [frameWire_eq_cons]
  omega

/-- Settles O31: `esc` gives one byte or two. -/
theorem wireLength : Obligations.WireLength := by
  intro c p
  have hlo := length_le_length_wireOf (frameLogical c p)
  have hhi := length_wireOf_le (frameLogical c p)
  rw [length_frameWire]
  refine ⟨by rw [length_wireOf], by omega, by omega, fun hp => ?_⟩
  have hlen : (frameLogical c p).length = 3 := by rw [hp]; rfl
  omega

/-! ### Control bytes on the wire (R78) -/

/-- R122: the complements of the three control bytes. -/
theorem cpl_of_isCtrl {b : Byte} (h : isCtrl b = true) : cpl b = 0x01#8 ∨ cpl b = 0x02#8 ∨ cpl b = 0x5A#8 := by
  obtain rfl | rfl | rfl := (isCtrl_iff b).mp h <;> decide

theorem cpl_ne_of_isCtrl {b : Byte} (h : isCtrl b = true) :
    cpl b ≠ startByte ∧ cpl b ≠ escapeByte ∧ cpl b ≠ stopByte := by
  rcases cpl_of_isCtrl h with h | h | h <;> rw [h] <;> decide

theorem ne_of_mem_wireOf {x : Byte} {l : List Byte} (h : x ∈ wireOf l) : x ≠ startByte ∧ x ≠ stopByte := by
  obtain ⟨b, -, hx⟩ := List.mem_flatMap.mp h
  rcases esc_cases b with ⟨hb, he⟩ | ⟨hb, he⟩ <;> rw [he] at hx
  · obtain ⟨hstart, -, hstop⟩ := cpl_ne_of_isCtrl hb
    rcases List.mem_pair.mp hx with rfl | rfl
    · decide
    · exact ⟨hstart, hstop⟩
  · obtain ⟨hstart, -, hstop⟩ := not_isCtrl_ne hb
    rw [List.mem_singleton.mp hx]
    exact ⟨hstart, hstop⟩

/-- An ESCAPE among the wire bytes opens a pair. -/
theorem wireOf_after_escape {l : List Byte} {i : Nat} (h : (wireOf l)[i]? = some escapeByte) :
    ∃ b, isCtrl b = true ∧ (wireOf l)[i + 1]? = some (cpl b) := by
  induction l generalizing i with
  | nil => cases h
  | cons b l ih =>
    rw [wireOf_cons] at h ⊢
    rcases esc_cases b with ⟨hb, he⟩ | ⟨hb, he⟩ <;> rw [he] at h ⊢
    · obtain ⟨-, hescape, -⟩ := cpl_ne_of_isCtrl hb
      match i with
      | 0 => exact ⟨b, hb, rfl⟩
      | 1 => exact absurd (Option.some.inj h) hescape
      | i + 2 => exact ih h
    · obtain ⟨-, hescape, -⟩ := not_isCtrl_ne hb
      match i with
      | 0 => exact absurd (Option.some.inj h) hescape
      | i + 1 => exact ih h

/-- The byte at an index of a frame past its START: a protected byte, or the STOP at the end. -/
theorem frameWire_getElem?_cases {c : Byte} {p : List Byte} {j : Nat} {x : Byte}
    (h : (frameWire c p)[j + 2]? = some x) :
    (j + 3 < (frameWire c p).length ∧ (wireOf (frameLogical c p))[j]? = some x) ∨
    (j + 3 = (frameWire c p).length ∧ x = stopByte) := by
  rw [length_frameWire]
  change (wireOf (frameLogical c p) ++ [stopByte])[j]? = some x at h
  rcases Nat.lt_or_ge j (wireOf (frameLogical c p)).length with hj | hj
  · rw [List.getElem?_append_left hj] at h
    exact .inl ⟨by omega, h⟩
  · rw [List.getElem?_append_right hj, List.getElem?_singleton] at h
    split_ifs at h with h0
    exact .inr ⟨by omega, (Option.some.inj h).symm⟩

theorem frameWire_getElem?_eq_start_iff (c : Byte) (p : List Byte) (i : Nat) :
    (frameWire c p)[i]? = some startByte ↔ i = 1 := by
  refine ⟨fun h => ?_, fun h => by rw [h]; rfl⟩
  match i with
  | 0 => exact absurd (Option.some.inj h) (by decide)
  | 1 => rfl
  | j + 2 =>
    rcases frameWire_getElem?_cases h with ⟨-, hj⟩ | ⟨-, hstop⟩
    · obtain ⟨hne, -⟩ := ne_of_mem_wireOf (List.mem_of_getElem? hj)
      exact absurd rfl hne
    · exact absurd hstop (by decide)

theorem frameWire_getElem?_eq_stop_iff (c : Byte) (p : List Byte) (i : Nat) :
    (frameWire c p)[i]? = some stopByte ↔ i + 1 = (frameWire c p).length := by
  constructor
  · intro h
    match i with
    | 0 | 1 => exact absurd (Option.some.inj h) (by decide)
    | j + 2 =>
      rcases frameWire_getElem?_cases h with ⟨-, hj⟩ | ⟨hlen, -⟩
      · obtain ⟨-, hne⟩ := ne_of_mem_wireOf (List.mem_of_getElem? hj)
        exact absurd rfl hne
      · exact hlen
  · intro h
    rw [show i = (frameWire c p).length - 1 by omega, ← List.getLast?_eq_getElem?]
    exact List.getLast?_concat

theorem frameWire_after_escape {c : Byte} {p : List Byte} {i : Nat} (h : (frameWire c p)[i]? = some escapeByte) :
    ∃ b, isCtrl b = true ∧ (frameWire c p)[i + 1]? = some (cpl b) := by
  match i with
  | 0 | 1 => exact absurd (Option.some.inj h) (by decide)
  | j + 2 =>
    rcases frameWire_getElem?_cases h with ⟨-, hj⟩ | ⟨-, hstop⟩
    · obtain ⟨b, hb, hnext⟩ := wireOf_after_escape hj
      obtain ⟨hlt, -⟩ := List.getElem?_eq_some_iff.mp hnext
      exact ⟨b, hb, (List.getElem?_append_left hlt).trans hnext⟩
    · exact absurd hstop (by decide)

/-- Settles O32: the protected part holds no START and no STOP, and its ESCAPEs open pairs. -/
theorem controlBytesOnWire : Obligations.ControlBytesOnWire := by
  intro c p i
  refine ⟨frameWire_getElem?_eq_start_iff c p i, frameWire_getElem?_eq_stop_iff c p i, fun h => ?_⟩
  obtain ⟨b, hb, hnext⟩ := frameWire_after_escape h
  rw [hnext]
  simpa using cpl_of_isCtrl hb

/-! ### The CRC bytes bring the CRC to zero (R104) -/

/-- Folding the low byte of the CRC leaves the high byte. -/
theorem crcStep_crcLow (c : Crc) : crcStep c (crcLow c) = (crcHigh c).setWidth 16 := by
  have hlow : ∀ i, i < 8 → (c ^^^ (crcLow c).setWidth 16).getLsbD i = false := by
    intro i hi
    simp [crcLow, hi]
    omega
  rw [crcStep, crcShifts_of_low_clear 8 _ hlow]
  ext i hi
  have hhigh : c.getLsbD (8 + i) = true → i < 8 := fun h => by
    have := BitVec.lt_of_getLsbD h
    omega
  simpa [crcLow, crcHigh] using hhigh

/-- Folding a byte into a CRC that is that byte gives zero. -/
theorem crcStep_setWidth_self (b : Byte) : crcStep (b.setWidth 16) b = 0#16 := by
  rw [crcStep, BitVec.xor_self]
  exact crcShifts_zero 8

theorem crcStep_crcLow_crcHigh (c : Crc) : crcStep (crcStep c (crcLow c)) (crcHigh c) = 0#16 := by
  rw [crcStep_crcLow, crcStep_setWidth_self]

theorem EncUnit.seal_crc (e : EncUnit) : e.seal.crc = 0#16 := crcStep_crcLow_crcHigh e.crc

theorem EncUnit.seal_len (e : EncUnit) : e.seal.len = e.len + e.completeNeed := by
  obtain ⟨⟨hlen, -⟩, -⟩ := e.seal_spec
  simpa [EncUnit.completeNeed, Nat.add_assoc] using hlen

theorem EncUnit.seal_valid (e : EncUnit) : e.seal.valid = true := (crcZero_iff _).mpr e.seal_crc

/-! ### ENC's words (R141 to R144) -/

/-- The word of ENC.NEW, as BUILD writes it (R85). -/
abbrev encNewWord : CommandWord := commandWord 0b0#1 0b00#2 0x00#8

/-- The word of ENC.COMPLETE, as BUILD writes it (R85). -/
abbrev encCompleteWord : CommandWord := commandWord 0b0#1 0b11#2 0x00#8

/-- The word is ENC.START's or ENC.ADD's, with this byte. -/
def AppendsByte (w : CommandWord) (b : Byte) : Prop := decodeCommand w = .encStart b ∨ decodeCommand w = .encAdd b

theorem issue_of_appendsByte {w : CommandWord} {b : Byte} (h : AppendsByte w b) (s : State) :
    issue w s = .next (s.tick.finishEnc (s.enc.protectedAppend s.config.nEnc b)) := by
  rcases h with h | h <;> rw [issue, h] <;> rfl

/-- `t` is `s` with the logical bytes `l` appended to ENC's frame; DEC and the build parameters are as before. -/
structure State.Encodes (l : List Byte) (s t : State) : Prop where
  wire : s.enc.AppendedWire (wireOf l) t.enc
  crc : t.enc.crc = crcFold s.enc.crc l
  dec : t.dec = s.dec
  config : t.config = s.config

theorem State.encodes_nil (s : State) : State.Encodes [] s s :=
  ⟨⟨rfl, fun _ => (if_neg (by simp)).symm⟩, rfl, rfl, rfl⟩

theorem State.Encodes.trans {l l' : List Byte} {s t u : State} (h : State.Encodes l s t)
    (h' : State.Encodes l' t u) : State.Encodes (l ++ l') s u where
  wire := by rw [wireOf_append]; exact h.wire.trans h'.wire
  crc := by rw [h'.crc, h.crc, crcFold_append]
  dec := h'.dec.trans h.dec
  config := h'.config.trans h.config

theorem State.Encodes.len {l : List Byte} {s t : State} (h : State.Encodes l s t) :
    t.enc.len = s.enc.len + (wireOf l).length := h.wire.1

theorem issue_append_of_fits {w : CommandWord} {b : Byte} {s : State} (hw : AppendsByte w b)
    (h : s.enc.len + (esc b).length ≤ s.config.nEnc) :
    ∃ t, issue w s = .next t ∧ t.resp = some okResponse ∧ State.Encodes [b] s t := by
  obtain ⟨hwire, hcrc, -⟩ := EncUnit.appendEscaped_spec b s.enc
  rw [issue_of_appendsByte hw, EncUnit.protectedAppend_of_fits h]
  exact ⟨_, rfl, rfl, by simpa using hwire, hcrc, rfl, rfl⟩

theorem issue_append_of_full {w : CommandWord} {b : Byte} {s : State} (hw : AppendsByte w b)
    (h : s.config.nEnc < s.enc.len + (esc b).length) :
    ∃ t, issue w s = .next t ∧ t.resp = some capResponse := by
  rw [issue_of_appendsByte hw, EncUnit.protectedAppend_of_full h]
  exact ⟨_, rfl, rfl⟩

/-- A run of ENC.START and ENC.ADD words whose bytes fit appends them all. -/
theorem runWords_of_appendsByte {ws : List CommandWord} {l : List Byte} (hw : List.Forall₂ AppendsByte ws l) {s : State}
    (h : s.enc.len + (wireOf l).length ≤ s.config.nEnc) :
    ∃ t, runWords ws s = some (List.replicate l.length okResponse, t) ∧ State.Encodes l s t := by
  induction hw generalizing s with
  | nil => exact ⟨s, rfl, s.encodes_nil⟩
  | @cons w b ws l hwb _ ih =>
    rw [wireOf_cons, List.length_append] at h
    obtain ⟨t, ht, hresp, hte⟩ := issue_append_of_fits hwb (s := s) (by omega)
    have hroom : t.enc.len + (wireOf l).length ≤ t.config.nEnc := by
      rw [hte.len, hte.config]
      simpa [Nat.add_assoc] using h
    obtain ⟨u, hu, hue⟩ := ih hroom
    exact ⟨u, runWords_cons_of_response ht hresp hu, hte.trans hue⟩

/-- R150: where the `k` first bytes fit and one more does not, the command of that byte is the first to respond CAP. -/
theorem responses_of_first_overflow {ws more : List CommandWord} {l : List Byte} (hw : List.Forall₂ AppendsByte ws l)
    {k : Nat} {s t : State} {rs : List Response} (hrun : runWords (ws ++ more) s = some (rs, t))
    (hfits : s.enc.len + (wireOf (l.take k)).length ≤ s.config.nEnc)
    (hfull : s.config.nEnc < s.enc.len + (wireOf (l.take (k + 1))).length) :
    rs.take (k + 1) = List.replicate k okResponse ++ [capResponse] := by
  induction hw generalizing k s rs with
  | nil => simp at hfits hfull; omega
  | @cons w b ws l hwb _ ih =>
    obtain ⟨u, r, rs', hu, hr, hrest, rfl⟩ := runWords_cons_response hrun
    rw [List.take_succ_cons, wireOf_cons, List.length_append] at hfull
    cases k with
    | zero =>
      obtain ⟨u', hu', hcap⟩ := issue_append_of_full hwb (s := s) (by simpa using hfull)
      cases hu.symm.trans hu'
      cases hr.symm.trans hcap
      rfl
    | succ k =>
      rw [List.take_succ_cons, wireOf_cons, List.length_append] at hfits
      obtain ⟨u', hu', hok, hue⟩ := issue_append_of_fits hwb (s := s) (by omega)
      cases hu.symm.trans hu'
      cases hr.symm.trans hok
      have hlen : u.enc.len = s.enc.len + (esc b).length := by simpa using hue.len
      rw [List.take_succ_cons, ih hrest (by rw [hlen, hue.config]; omega) (by rw [hlen, hue.config]; omega)]
      rfl

/-! ### BUILD (R85, R149, R150) -/

/-- BUILD's ENC.START and ENC.ADD words. -/
def buildAppends (c : Byte) (p : List Byte) : List CommandWord := commandWord 0b0#1 0b01#2 c :: addWords p

theorem buildWords_eq (c : Byte) (p : List Byte) :
    buildWords c p = encNewWord :: (buildAppends c p ++ [encCompleteWord]) := rfl

theorem buildAppends_appendsByte (c : Byte) (p : List Byte) : List.Forall₂ AppendsByte (buildAppends c p) (c :: p) := by
  refine .cons ?_ (List.forall₂_map_left_iff.mpr (List.forall₂_same.mpr fun b _ => ?_))
  · obtain ⟨-, hstart, -⟩ := decodeCommand_rows c
    exact .inl hstart
  · obtain ⟨-, -, hadd, -⟩ := decodeCommand_rows b
    exact .inr hadd

/-- The state that ENC.NEW leaves (R141). -/
def State.afterNew (s : State) : State := { s.tick with enc := EncUnit.reset }.respond .ok false

theorem issue_encNewWord (s : State) : issue encNewWord s = .next s.afterNew := rfl

theorem issue_encCompleteWord (s : State) :
    issue encCompleteWord s = .next (s.tick.finishEnc (s.enc.completeFrame s.config.nEnc)) := rfl

theorem issue_complete_of_fits {s : State} (h : s.enc.len + s.enc.completeNeed ≤ s.config.nEnc) :
    issue encCompleteWord s = .next ({ s.tick with enc := s.enc.seal }.respond .ok false) := by
  rw [issue_encCompleteWord, EncUnit.completeFrame_of_fits h]
  rfl

theorem issue_complete_of_full {s : State} (h : s.config.nEnc < s.enc.len + s.enc.completeNeed) :
    issue encCompleteWord s = .next (s.tick.respond .cap false) := by
  rw [issue_encCompleteWord, EncUnit.completeFrame_of_full h]
  rfl

/-- The frame as its BUILD appends it: preamble, protected bytes, CRC bytes and STOP. -/
theorem frameWire_eq_append (c : Byte) (p : List Byte) :
    frameWire c p = [syncByte, startByte] ++ wireOf (c :: p) ++
      (esc (crcLow (crcFold crcSeed (c :: p))) ++ esc (crcHigh (crcFold crcSeed (c :: p))) ++ [stopByte]) := by
  simp [frameWire, frameLogical, crcBytesOf]

/-- What ENC.COMPLETE checks at the end of a BUILD is the length of the whole frame. -/
theorem State.Encodes.len_add_completeNeed {c : Byte} {p : List Byte} {s t : State}
    (h : State.Encodes (c :: p) s.afterNew t) : t.enc.len + t.enc.completeNeed = (frameWire c p).length := by
  have hcrc : t.enc.crc = crcFold crcSeed (c :: p) := h.crc
  have hlen : t.enc.len = 2 + (wireOf (c :: p)).length := h.len
  rw [frameWire_eq_append, EncUnit.completeNeed, hcrc, hlen]
  simp only [List.length_append, List.length_cons, List.length_nil]

/-- A BUILD whose protected payload fits, up to its ENC.COMPLETE. -/
theorem runWords_build_upTo_complete {s : State} {c : Byte} {p : List Byte}
    (h : 2 + (wireOf (c :: p)).length ≤ s.config.nEnc) :
    ∃ t, State.Encodes (c :: p) s.afterNew t ∧ runWords (buildWords c p) s =
      (runWords [encCompleteWord] t).map (fun r => (List.replicate (p.length + 2) okResponse ++ r.1, r.2)) := by
  obtain ⟨t, ht, hte⟩ := runWords_of_appendsByte (buildAppends_appendsByte c p) (s := s.afterNew) h
  refine ⟨t, hte, ?_⟩
  rw [buildWords_eq, ← List.cons_append]
  exact runWords_append (runWords_cons_of_response (issue_encNewWord s) rfl ht)

/-- Settles O33: the appends of the protected payload, and then those of ENC.COMPLETE, all fit. -/
theorem buildEmitsFrame : Obligations.BuildEmitsFrame := by
  intro s c p h
  have hpayload : 2 + (wireOf (c :: p)).length ≤ s.config.nEnc := by
    rw [frameWire_eq_append] at h
    simp only [List.length_append, List.length_cons, List.length_nil] at h ⊢
    omega
  obtain ⟨t, hte, hrun⟩ := runWords_build_upTo_complete hpayload
  have hconfig : t.config = s.config := hte.config
  have hcrc : t.enc.crc = crcFold crcSeed (c :: p) := hte.crc
  have hcompletes := issue_complete_of_fits (s := t) (by rw [hte.len_add_completeNeed, hconfig]; exact h)
  obtain ⟨hwire, -, hcomplete, -⟩ := t.enc.seal_spec
  have hbytes : EncUnit.reset.AppendedWire _ t.enc.seal := hte.wire.trans hwire
  have hout : Memory.contents t.enc.seal.buf t.enc.seal.len = frameWire c p := by
    rw [hbytes.contents, frameWire_eq_append, hcrc, List.append_assoc]
    rfl
  refine ⟨({ t.tick with enc := t.enc.seal } : State).respond .ok false, ?_, t.enc.seal_crc, hcomplete, t.enc.seal_valid,
    hout, t.enc.seal_len.trans hte.len_add_completeNeed, hte.dec, hconfig⟩
  rw [hrun, runWords_cons_of_response hcompletes rfl rfl, List.replicate_succ' (n := p.length + 2)]
  rfl

/-- A bound that holds at 0 and fails at `n` fails first after some `k`. -/
theorem exists_first_exceeding {f : Nat → Nat} {n bound : Nat} (h0 : f 0 ≤ bound) (hn : bound < f n) :
    ∃ k, f k ≤ bound ∧ bound < f (k + 1) := by
  induction n with
  | zero => omega
  | succ n ih =>
    rcases Nat.lt_or_ge bound (f n) with h | h
    · exact ih h
    · exact ⟨n, h, hn⟩

/-- R150, where ENC.START or an ENC.ADD is the first command that does not fit. -/
theorem build_responses_of_append_full {s t : State} {c : Byte} {p : List Byte} {rs : List Response} {k : Nat}
    (hrun : runWords (buildWords c p) s = some (rs, t))
    (hfits : 2 + (wireOf ((c :: p).take k)).length ≤ s.config.nEnc)
    (hfull : s.config.nEnc < 2 + (wireOf ((c :: p).take (k + 1))).length) :
    rs.take (k + 2) = List.replicate (k + 1) okResponse ++ [capResponse] := by
  rw [buildWords_eq] at hrun
  obtain ⟨u, rs', hu, hrest, rfl⟩ := runWords_cons_some hrun
  cases (issue_encNewWord s).symm.trans hu
  exact congrArg (okResponse :: ·) (responses_of_first_overflow (buildAppends_appendsByte c p) hrest hfits hfull)

/-- R150, where ENC.COMPLETE is the first command that does not fit. -/
theorem build_responses_of_complete_full {s t : State} {c : Byte} {p : List Byte} {rs : List Response}
    (hrun : runWords (buildWords c p) s = some (rs, t)) (hfits : 2 + (wireOf (c :: p)).length ≤ s.config.nEnc)
    (hfull : s.config.nEnc < (frameWire c p).length) :
    rs = List.replicate (p.length + 2) okResponse ++ [capResponse] := by
  obtain ⟨u, hue, hbuild⟩ := runWords_build_upTo_complete hfits
  have hconfig : u.config = s.config := hue.config
  have hcap := issue_complete_of_full (s := u) (by rw [hue.len_add_completeNeed, hconfig]; exact hfull)
  rw [hbuild, runWords_cons_of_response hcap rfl rfl] at hrun
  cases hrun
  rfl

/-- R150: a BUILD that does not fit has a CAP among its responses. -/
theorem cap_mem_build_responses {s t : State} {c : Byte} {p : List Byte} {rs : List Response}
    (hs : 2 ≤ s.config.nEnc) (hrun : runWords (buildWords c p) s = some (rs, t))
    (hfull : s.config.nEnc < (frameWire c p).length) : capResponse ∈ rs := by
  rcases Nat.lt_or_ge s.config.nEnc (2 + (wireOf (c :: p)).length) with h | h
  · obtain ⟨k, hk, hk'⟩ := exists_first_exceeding (f := fun k => 2 + (wireOf ((c :: p).take k)).length)
      (n := (c :: p).length) hs (by rw [List.take_length]; exact h)
    have htake := build_responses_of_append_full hrun hk hk'
    exact List.mem_of_mem_take (i := k + 2) (by rw [htake]; exact List.mem_concat_self)
  · rw [build_responses_of_complete_full hrun h hfull]
    exact List.mem_concat_self

/-- Settles O34: a frame that fits is `buildEmitsFrame`, and one that does not has its first CAP where the running
total first exceeds the capacity. -/
theorem buildFitsExactly : Obligations.BuildFitsExactly := by
  intro s t c p rs hs hrun
  refine ⟨?_, fun k _ => build_responses_of_append_full hrun, build_responses_of_complete_full hrun⟩
  rw [← length_wireOf, ← length_frameWire]
  constructor
  · intro hok
    by_contra hlt
    exact absurd (hok _ (cap_mem_build_responses hs hrun (Nat.not_le.mp hlt))) (by decide)
  · intro hfits r hr
    obtain ⟨u, hu, -⟩ := buildEmitsFrame s c p hfits
    rw [hrun] at hu
    cases hu
    exact List.eq_of_mem_replicate hr

end Sys2Proof.Machine

/-! Proofs for spec/40_crc.md: the table identity, what folding one byte cannot merge, and when it gives zero. -/

namespace Sys2Proof.Machine

/-! ### Folding one byte (R101, R107) -/

/-- No byte merges two CRC values: both its exclusive or and the eight iterations can be undone. -/
theorem crcStep_injective (b : Byte) : Function.Injective (fun c => crcStep c b) := fun _ _ h =>
  (BitVec.xor_left_inj _).mp (crcShifts_injective 8 h)

theorem crcStep_eq_zero_iff (c : Crc) (b : Byte) : crcStep c b = 0#16 ↔ c = b.setWidth 16 := by
  rw [← crcStep_setWidth_self b]
  exact (crcStep_injective b).eq_iff

/-- The entry that a byte selects in the table of R107. -/
theorem crcStep_zero_left (b : Byte) : crcStep 0#16 b = crcShifts 8 (b.setWidth 16) := by
  rw [crcStep, BitVec.zero_xor]

theorem getLsbD_xor_crcLow {i : Nat} (x : Crc) (hi : i < 8) : (x ^^^ (crcLow x).setWidth 16).getLsbD i = false := by
  have hi16 : i < 16 := by omega
  simp [crcLow, hi, hi16]

theorem setWidth_byte_ushiftRight_eight (b : Byte) : b.setWidth 16 >>> 8 = 0#16 := by
  rw [← BitVec.setWidth_ushiftRight (by decide), BitVec.ushiftRight_eq_zero (Nat.le_refl 8)]
  rfl

/-- Eight iterations move the high byte down, and the table entry of the low byte is added: the two parts of the value
do not meet, because an iteration is linear. -/
theorem crcShifts_eight (x : Crc) : crcShifts 8 x = (x >>> 8) ^^^ crcStep 0#16 (crcLow x) := by
  have hsplit : x = (x ^^^ (crcLow x).setWidth 16) ^^^ (crcLow x).setWidth 16 := by
    rw [BitVec.xor_assoc, BitVec.xor_self, BitVec.xor_zero]
  have hhigh : crcShifts 8 (x ^^^ (crcLow x).setWidth 16) = x >>> 8 := by
    rw [crcShifts_of_low_clear 8 _ fun _ => getLsbD_xor_crcLow x, BitVec.ushiftRight_xor_distrib,
      setWidth_byte_ushiftRight_eight, BitVec.xor_zero]
  calc crcShifts 8 x
      = crcShifts 8 (x ^^^ (crcLow x).setWidth 16) ^^^ crcShifts 8 ((crcLow x).setWidth 16) := by
        rw [← crcShifts_xor, ← hsplit]
    _ = (x >>> 8) ^^^ crcStep 0#16 (crcLow x) := by rw [hhigh, crcStep_zero_left]

/-- R107: a byte changes only which entry of the table is taken, not what is shifted. -/
theorem crcStep_eq_table (c : Crc) (b : Byte) :
    crcStep c b = (c >>> 8) ^^^ crcStep 0#16 (crcLow (c ^^^ b.setWidth 16)) := by
  rw [crcStep, crcShifts_eight, BitVec.ushiftRight_xor_distrib, setWidth_byte_ushiftRight_eight, BitVec.xor_zero]

/-! ### The self-check (R102, R104) -/

/-- The seed has its high byte set, and a CRC that one byte brings to zero is that byte. -/
theorem crcStep_crcSeed_ne_zero (b : Byte) : crcStep crcSeed b ≠ 0#16 := by
  intro h
  have h15 : crcSeed.getLsbD 15 = (b.setWidth 16).getLsbD 15 := by rw [(crcStep_eq_zero_iff _ _).mp h]
  simp [crcSeed] at h15

theorem crcFold_crcLow_crcHigh (c : Crc) : crcFold c [crcLow c, crcHigh c] = 0#16 := crcStep_crcLow_crcHigh c

/-! ### The four statements -/

/-- Settles O16: `crcStep_crcLow_crcHigh`, and folding the list first. -/
theorem crcSelfCheck : Obligations.CrcSelfCheck := by
  refine ⟨crcStep_crcLow_crcHigh, fun l => ?_⟩
  rw [crcFold_append]
  exact crcFold_crcLow_crcHigh (crcFold crcSeed l)

/-- Settles O17: on finitely many values, injective is bijective. -/
theorem crcStepBijective : Obligations.CrcStepBijective := fun b => (crcStep_injective b).bijective_of_finite

/-- Settles O18: the identity is `crcStep_eq_table`; the printed entries are computed. -/
theorem crcTableIdentity : Obligations.CrcTableIdentity :=
  ⟨crcStep_eq_table, by decide, by decide, by decide⟩

/-- Settles O19: no byte brings the seed to zero, and `FF FF` are the seed's own two bytes. -/
theorem crcZeroCorners : Obligations.CrcZeroCorners := by
  refine ⟨rfl, fun _ => rfl, rfl, fun b => ?_, crcFold_crcLow_crcHigh crcSeed, rfl⟩
  exact beq_eq_false_iff_ne.mpr (crcStep_crcSeed_ne_zero b)

end Sys2Proof.Machine

/-! Proofs for spec/41_escape.md: the escape functions as values, and the round trip of `esc` through DEC. -/

namespace Sys2Proof.Machine

/-! ### The functions (R121 to R124) -/

theorem toNat_cpl (b : Byte) : (cpl b).toNat = 255 - b.toNat := BitVec.toNat_not

theorem isCtrl_eq_decide (b : Byte) : isCtrl b = decide (b = startByte ∨ b = escapeByte ∨ b = stopByte) := by
  rw [Bool.eq_iff_iff, isCtrl_iff, decide_eq_true_iff]

theorem esc_of_isCtrl {b : Byte} (h : isCtrl b = true) : esc b = [escapeByte, cpl b] := if_pos h

theorem esc_of_ne {b : Byte} (hstart : b ≠ startByte) (hescape : b ≠ escapeByte) (hstop : b ≠ stopByte) :
    esc b = [b] :=
  if_neg (mt (isCtrl_iff b).mp (not_or.mpr ⟨hstart, not_or.mpr ⟨hescape, hstop⟩⟩))

/-- Settles O20: the lemmas above at the printed constants. -/
theorem escapeFunctions : Obligations.EscapeFunctions :=
  ⟨isCtrl_eq_decide, fun b => ⟨toNat_cpl b, cpl_cpl b⟩, esc_of_isCtrl rfl, esc_of_isCtrl rfl, esc_of_isCtrl rfl,
    fun _ => esc_of_ne, toNat_cpl⟩

/-! ### The whole next state of the rows on the way (R172, R181, R182, R185) -/

/-- R172, with room: the byte stands at `DEC.len`, and nothing but DEC and the response changes. -/
theorem State.finishDecAppend_appended {s : State} (v : Byte) (h : s.dec.len < s.config.nDec) :
    ∃ t, s.finishDecAppend (s.dec.logicalAppend s.config.nDec v) .data = t ∧ t.resp = some okResponse ∧
      t.dec.state = .data ∧ s.dec.Appended v t.dec ∧ s.OnlyDecChanges t := by
  obtain ⟨d, hd, happ, -⟩ := DecUnit.logicalAppend_of_fits (v := v) h
  rw [hd]
  exact ⟨_, rfl, rfl, rfl, happ, rfl, rfl, rfl, rfl⟩

/-- The state that ESCAPE leaves in Data (R181): nothing is appended, and the next byte is an escaped one. -/
def State.afterEscape (s : State) : State :=
  { s with dec := { s.dec with state := .escapedData } }.respond .ok false

theorem execDecFeed_escapeByte {s : State} (hs : s.dec.state = .data) :
    execDecFeed escapeByte s = .next s.afterEscape :=
  execDecFeed_of_data hs escapeByte

/-- R182, with room, at every index of the buffer. -/
theorem execDecFeed_plain_appended {s : State} {b : Byte} (hs : s.dec.state = .data) (hb : isCtrl b = false)
    (h : s.dec.len < s.config.nDec) :
    ∃ t, execDecFeed b s = .next t ∧ t.resp = some okResponse ∧ t.dec.state = .data ∧ s.dec.Appended b t.dec ∧
      s.OnlyDecChanges t := by
  obtain ⟨hstart, hescape, hstop⟩ := not_isCtrl_ne hb
  obtain ⟨t, rfl, ht⟩ := State.finishDecAppend_appended b h
  refine ⟨_, ?_, ht⟩
  rw [execDecFeed_of_data hs, if_neg hstart, if_neg hescape, if_neg hstop]

/-- R185, with room, at every index of the buffer: any byte after ESCAPE is appended unescaped. -/
theorem execDecFeed_escaped_appended {s : State} (e : Byte) (hs : s.dec.state = .escapedData)
    (h : s.dec.len < s.config.nDec) :
    ∃ t, execDecFeed e s = .next t ∧ t.resp = some okResponse ∧ t.dec.state = .data ∧
      s.dec.Appended (unesc e) t.dec ∧ s.OnlyDecChanges t := by
  obtain ⟨t, rfl, ht⟩ := State.finishDecAppend_appended (unesc e) h
  exact ⟨_, execDecFeed_of_escapedData hs e, ht⟩

/-! ### The round trip (R125) -/

/-- Settles O21: a control byte goes through EscapedData, where `unesc` takes its complement back; every other byte is
appended as it is. -/
theorem escapeRoundTrip : Obligations.EscapeRoundTrip := by
  intro s b hs hroom
  rcases esc_cases b with ⟨-, he⟩ | ⟨hb, he⟩ <;> rw [he]
  · have hescape := execDecFeed_escapeByte (s := s.tick) hs
    obtain ⟨t, ht, hresp, hstate, happ, hconfig, henc, -⟩ :=
      execDecFeed_escaped_appended (s := s.tick.afterEscape.tick) (cpl b) rfl hroom
    rw [unesc_cpl] at happ
    exact ⟨t, runWords_feed_cons hescape rfl (runWords_feed_cons ht hresp rfl), hstate, happ, henc, hconfig⟩
  · obtain ⟨t, ht, hresp, hstate, happ, hconfig, henc, -⟩ := execDecFeed_plain_appended (s := s.tick) hs hb hroom
    exact ⟨t, runWords_feed_cons ht hresp rfl, hstate, happ, henc, hconfig⟩

end Sys2Proof.Machine

/-! Proofs for spec/42_encoder.md: what each ENC command does, said once for the instruction; what follows of it where
commands follow one another; and the frame that ENC builds, fed to DEC. -/

namespace Sys2Proof

/-! ### The words of the ENC commands (R81) -/

theorem decodeCommand_of_encNew {w : CommandWord} (h : w &&& 0x700#11 = 0x000#11) : decodeCommand w = .encNew :=
  if_pos h

theorem decodeCommand_of_encStart {w : CommandWord} (h : w &&& 0x700#11 = 0x100#11) :
    decodeCommand w = .encStart (wordData w) := by
  rw [decodeCommand, h]
  rfl

theorem decodeCommand_of_encAdd {w : CommandWord} (h : w &&& 0x700#11 = 0x200#11) :
    decodeCommand w = .encAdd (wordData w) := by
  rw [decodeCommand, h]
  rfl

theorem decodeCommand_of_encComplete {w : CommandWord} (h : w &&& 0x700#11 = 0x300#11) :
    decodeCommand w = .encComplete := by
  rw [decodeCommand, h]
  rfl

end Sys2Proof

namespace Sys2Proof.Machine

/-! ### ENC.NEW (R141) -/

/-- Settles O22: the two raw appends and the seed make the unit of the reset state. -/
theorem encNewEffect : Obligations.EncNewEffect :=
  ⟨fun _ => decodeCommand_of_encNew, fun _ => rfl⟩

/-! ### ENC.START and ENC.ADD (R140, R142, R143) -/

/-- ENC.START and ENC.ADD have one datapath (R143). -/
theorem exec_append {i : Instr} {b : Byte} (hi : i = .encStart b ∨ i = .encAdd b) (s : State) :
    exec i s = .next (s.finishEnc (s.enc.protectedAppend s.config.nEnc b)) := by
  rcases hi with rfl | rfl <;> rfl

theorem exec_append_of_fits {i : Instr} {b : Byte} {s : State} (hi : i = .encStart b ∨ i = .encAdd b)
    (h : s.enc.len + (esc b).length ≤ s.config.nEnc) :
    exec i s = .next ({ s with enc := s.enc.appendEscaped b }.respond .ok false) := by
  rw [exec_append hi, EncUnit.protectedAppend_of_fits h]
  rfl

theorem exec_append_of_full {i : Instr} {b : Byte} {s : State} (hi : i = .encStart b ∨ i = .encAdd b)
    (h : s.config.nEnc < s.enc.len + (esc b).length) : exec i s = .next (s.respond .cap false) := by
  rw [exec_append hi, EncUnit.protectedAppend_of_full h]
  rfl

/-- Settles O23, by the two sides of the capacity check. -/
theorem encAppendEffect : Obligations.EncAppendEffect := by
  refine ⟨fun w => ⟨decodeCommand_of_encStart, decodeCommand_of_encAdd⟩, fun s b i hi => ⟨fun h => ?_, ?_⟩⟩
  · obtain ⟨hwire, hcrc, hcomplete, hvalid⟩ := EncUnit.appendEscaped_spec b s.enc
    exact ⟨_, exec_append_of_fits hi h, hwire, hcrc, hcomplete, hvalid, rfl, rfl, rfl, rfl, rfl⟩
  · exact exec_append_of_full hi

theorem esc_of_not_isCtrl {b : Byte} (h : isCtrl b = false) : esc b = [b] := by
  simp [esc, h]

/-- Settles O28: the failed append leaves all but the response as it was (R211), so the byte after it sees ENC as it
was before. -/
theorem encCapacityNotSticky : Obligations.EncCapacityNotSticky := by
  intro s b c hroom hb hc
  obtain ⟨-, hstartb, -⟩ := decodeCommand_rows b
  obtain ⟨-, hstartc, -⟩ := decodeCommand_rows c
  have hfull : s.config.nEnc < s.enc.len + (esc b).length := by
    rw [esc_of_isCtrl hb, ← hroom]
    exact Nat.lt_succ_self _
  have hfits : s.enc.len + (esc c).length ≤ s.config.nEnc := by rw [esc_of_not_isCtrl hc]; exact hroom.le
  have hfails := exec_append_of_full (s := s.tick) (.inl hstartb) hfull
  have happends := exec_append_of_fits (s := (s.tick.respond .cap false).tick) (.inl hstartc) hfits
  obtain ⟨hwire, hcrc, hcomplete, hvalid⟩ := EncUnit.appendEscaped_spec c s.enc
  rw [esc_of_not_isCtrl hc] at hwire
  exact ⟨_, runWords_cons_of_response hfails rfl (runWords_cons_of_response happends rfl rfl), hwire, hcrc, hcomplete,
    hvalid, rfl, rfl⟩

/-! ### ENC.COMPLETE (R144, R147) -/

theorem EncUnit.len_add_completeNeed (e : EncUnit) :
    e.len + e.completeNeed = e.len + (esc (crcLow e.crc)).length + (esc (crcHigh e.crc)).length + 1 := by
  rw [EncUnit.completeNeed, ← Nat.add_assoc, ← Nat.add_assoc]

theorem exec_encComplete (s : State) :
    exec .encComplete s = .next (s.finishEnc (s.enc.completeFrame s.config.nEnc)) := rfl

theorem exec_encComplete_of_fits {s : State} (h : s.enc.len + s.enc.completeNeed ≤ s.config.nEnc) :
    exec .encComplete s = .next ({ s with enc := s.enc.seal }.respond .ok false) := by
  rw [exec_encComplete, EncUnit.completeFrame_of_fits h]
  rfl

theorem exec_encComplete_of_full {s : State} (h : s.config.nEnc < s.enc.len + s.enc.completeNeed) :
    exec .encComplete s = .next (s.respond .cap false) := by
  rw [exec_encComplete, EncUnit.completeFrame_of_full h]
  rfl

/-- Settles O24, by the two sides of the capacity check; R104 gives the CRC and `valid`. -/
theorem encCompleteEffect : Obligations.EncCompleteEffect := by
  refine ⟨fun _ => decodeCommand_of_encComplete, fun s => ⟨fun h => ?_, fun h => ?_⟩⟩
  · obtain ⟨hwire, -, hcomplete, -⟩ := s.enc.seal_spec
    exact ⟨_, exec_encComplete_of_fits (s.enc.len_add_completeNeed.trans_le h), hwire, s.enc.seal_crc, hcomplete,
      s.enc.seal_valid, rfl, rfl, rfl, rfl, rfl⟩
  · exact exec_encComplete_of_full (h.trans_eq s.enc.len_add_completeNeed.symm)

theorem crc_of_encComplete_ok {s t : State} (h : exec .encComplete s = .next t) (hok : t.resp = some okResponse) :
    t.enc.crc = 0x0000#16 := by
  have hmoves := exec_enc_moves h
  rw [hok] at hmoves
  generalize t.enc = e at hmoves
  cases hmoves with
  | append _ hi _ => rcases hi with hi | hi <;> cases hi
  | sealed _ => exact s.enc.seal_crc
  | other _ hi => cases hi

/-- Settles O25: the snapshot is zero, whose two bytes need no escape. -/
theorem secondCompleteAppends : Obligations.SecondCompleteAppends := by
  intro s t h hok hroom
  obtain ⟨-, heffect⟩ := encCompleteEffect
  obtain ⟨hfits, -⟩ := heffect t
  rw [crc_of_encComplete_ok h hok] at hfits
  exact hfits hroom

/-! ### A BUILD whose responses are all OK (R150) -/

/-- `cap_mem_build_responses` for every capacity: where the preamble alone takes all of it, ENC.START fails. -/
theorem cap_mem_build_responses_of_full {s t : State} {c : Byte} {p : List Byte} {rs : List Response}
    (hrun : runWords (buildWords c p) s = some (rs, t)) (hfull : s.config.nEnc < (frameWire c p).length) :
    capResponse ∈ rs := by
  rcases Nat.lt_or_ge s.config.nEnc 2 with hsmall | hs
  · obtain ⟨u, r, rs', hu, -, hrest, rfl⟩ := runWords_cons_response hrun
    cases (issue_encNewWord s).symm.trans hu
    obtain ⟨v, r', rs'', hv, hr', -, rfl⟩ := runWords_cons_response hrest
    obtain ⟨-, hstart, -⟩ := decodeCommand_rows c
    obtain ⟨v', hv', hcap⟩ := issue_append_of_full (s := s.afterNew) (.inl hstart) (Nat.lt_add_right _ hsmall)
    cases hv.symm.trans hv'
    cases hr'.symm.trans hcap
    simp
  · exact cap_mem_build_responses hs hrun hfull

theorem outbound_of_build_ok {s t : State} {c : Byte} {p : List Byte} {rs : List Response}
    (hrun : runWords (buildWords c p) s = some (rs, t)) (hok : ∀ r ∈ rs, r = okResponse) :
    t.outbound = frameWire c p := by
  have hfits : (frameWire c p).length ≤ s.config.nEnc := by
    by_contra hfull
    exact absurd (hok _ (cap_mem_build_responses_of_full hrun (Nat.not_le.mp hfull))) (by decide)
  obtain ⟨u, hu, -, -, -, hout, -⟩ := buildEmitsFrame s c p hfits
  cases hrun.symm.trans hu
  exact hout

/-! ### The sync byte in DEC (R151) -/

/-- DEC's response to the sync byte: CAP exactly where it is appended to a full buffer. -/
def State.syncResponse (s : State) : Response :=
  if s.dec.state ≠ .start ∧ s.config.nDec ≤ s.dec.len then capResponse else okResponse

/-- An append of R182 or R185, with room or without. -/
theorem State.finishDecAppend_resp_state (s : State) (v : Byte) :
    (s.finishDecAppend (s.dec.logicalAppend s.config.nDec v) .data).resp =
      some (if s.config.nDec ≤ s.dec.len then capResponse else okResponse) ∧
    ((s.finishDecAppend (s.dec.logicalAppend s.config.nDec v) .data).dec.state = .start ∨
      (s.finishDecAppend (s.dec.logicalAppend s.config.nDec v) .data).dec.state = .data) := by
  rcases Nat.lt_or_ge s.dec.len s.config.nDec with h | h
  · obtain ⟨d, hd, -⟩ := DecUnit.logicalAppend_of_fits (v := v) h
    rw [hd, if_neg (Nat.not_le.mpr h)]
    exact ⟨rfl, .inr rfl⟩
  · rw [DecUnit.logicalAppend_of_full h, if_pos h]
    exact ⟨rfl, .inl rfl⟩

/-- The sync byte is no control byte: Start ignores it, Data appends it and EscapedData takes it as the escaped byte.
It leaves DEC where a START begins a frame. -/
theorem execDecFeed_syncByte {s : State} (hs : s.dec.state ≠ .reserved) :
    ∃ t, execDecFeed syncByte s = .next t ∧ t.resp = some s.syncResponse ∧
      (t.dec.state = .start ∨ t.dec.state = .data) ∧ t.config = s.config := by
  unfold State.syncResponse
  cases hp : s.dec.state with
  | start => exact ⟨_, execDecFeed_of_start hp syncByte, rfl, .inl hp, rfl⟩
  | data =>
    obtain ⟨hresp, hstate⟩ := s.finishDecAppend_resp_state syncByte
    exact ⟨_, execDecFeed_of_data hp syncByte, by simpa using hresp, hstate, s.finishDecAppend_config _ _⟩
  | escapedData =>
    obtain ⟨hresp, hstate⟩ := s.finishDecAppend_resp_state (unesc syncByte)
    exact ⟨_, execDecFeed_of_escapedData hp syncByte, by simpa using hresp, hstate, s.finishDecAppend_config _ _⟩
  | reserved => exact absurd hp hs

/-! ### The frame that ENC built, in DEC (R151) -/

theorem crcFold_frameLogical (c : Byte) (p : List Byte) : crcFold crcSeed (frameLogical c p) = 0#16 := by
  rw [frameLogical, crcFold_append]
  exact crcFold_crcLow_crcHigh _

/-- Settles O35: the sync byte leaves DEC in Start or Data, and from there the frame is handed over; its CRC bytes bring
the CRC to zero (R104). -/
theorem builtFrameIsAccepted : Obligations.BuiltFrameIsAccepted := by
  intro s t d c p rs hrun hok hd hroom
  obtain ⟨a, ha, har, has, hac⟩ := execDecFeed_syncByte (s := d.tick) hd
  obtain ⟨u, hu, hframe⟩ := runWords_feed_frameBytes has (hac ▸ hroom)
  have hvalid : frameResponses (frameLogical c p) =
      List.replicate ((frameWire c p).length - 2) okResponse ++ [frameResponse true] := by
    rw [frameResponses, frameResponseOf, crcFold_frameLogical, length_frameWire, Nat.sub_add_comm (by decide)]
    rfl
  refine ⟨u, ?_, hframe.raw, hframe.state⟩
  rw [outbound_of_build_ok hrun hok, ← hvalid]
  exact runWords_feed_cons ha har hu

/-! ### After any bytes (R188) -/

theorem DecUnit.Moves.state_ne_reserved {nDec : Nat} {d d' : DecUnit} (h : d.Moves nDec d')
    (hd : d.state ≠ .reserved) : d'.state ≠ .reserved := by
  cases h with
  | same => exact hd
  | goTo p hp => exact hp
  | restart p hp => exact hp
  | append v _ => exact nofun

/-- Outside DEC.state 0b11 every run of command words completes, and ends outside it. -/
theorem runWords_completes (ws : List CommandWord) {s : State} (hs : s.dec.state ≠ .reserved) :
    ∃ rs t, runWords ws s = some (rs, t) ∧ t.dec.state ≠ .reserved ∧ t.config = s.config := by
  induction ws generalizing s with
  | nil => exact ⟨[], s, rfl, hs, rfl⟩
  | cons w ws ih =>
    obtain ⟨u, hu⟩ : ∃ u, issue w s = .next u := everyCommandAccepted w s.tick hs
    obtain ⟨rs, t, ht, hts, htc⟩ := ih ((exec_dec_moves hu).state_ne_reserved hs)
    refine ⟨u.resp.toList ++ rs, t, ?_, hts, htc.trans (exec_config (s := s.tick) hu)⟩
    rw [runWords_cons_of_next hu, ht]
    rfl

/-- Settles O51: the noise leaves DEC in some state, and after the sync byte the frame's START begins an empty frame. -/
theorem resynchronisation : Obligations.Resynchronisation := by
  intro s noise l hs hroom
  obtain ⟨rs, n, hn, hns, hnc⟩ := runWords_completes (feedWords noise) hs
  obtain ⟨u, hu, hur, hus, huc⟩ := execDecFeed_syncByte (s := n.tick) hns
  have hsync := runWords_feed_append hn (runWords_feed_cons (bs := []) hu hur rfl)
  have hconfig : u.config = s.config := huc.trans hnc
  obtain ⟨t, ht, hframe⟩ := runWords_feed_frameBytes hus (hconfig ▸ hroom)
  exact ⟨t, u, _, frameResponses l, hsync, runWords_feed_append hsync ht, rfl, hframe.handedOver⟩

end Sys2Proof.Machine

/-! Proofs for spec/43_decoder.md: what each row of DEC.FEED does and when, said once for the row and once for the state
table; what of it a run of bytes shows; and the host's views of a frame. -/

namespace Sys2Proof

/-! ### The words of the DEC commands (R81) -/

theorem decodeCommand_of_decReset {w : CommandWord} (h : w &&& 0x700#11 = 0x400#11) : decodeCommand w = .decReset := by
  rw [decodeCommand, h]
  rfl

theorem decodeCommand_of_decFeed {w : CommandWord} (h : w &&& 0x700#11 = 0x500#11) :
    decodeCommand w = .decFeed (wordData w) := by
  rw [decodeCommand, h]
  rfl

theorem decodeCommand_of_decRsv2 {w : CommandWord} (h : w &&& 0x700#11 = 0x600#11) : decodeCommand w = .decRsv2 := by
  rw [decodeCommand, h]
  rfl

theorem decodeCommand_of_decRsv3 {w : CommandWord} (h : w &&& 0x700#11 = 0x700#11) : decodeCommand w = .decRsv3 := by
  rw [decodeCommand, h]
  rfl

/-- DEC.FEED ignores no data bit, so each byte has one word. -/
theorem eq_feedWord_of_decodeCommand {w : CommandWord} {b : Byte} (h : decodeCommand w = .decFeed b) :
    w = commandWord 0b1#1 0b01#2 b := by
  obtain ⟨-, hencode⟩ := encode_decodeCommand w
  obtain ⟨u, o, d, rfl⟩ := exists_eq_commandWord w
  rw [h, withoutIgnoredBits_commandWord] at hencode
  have hword := Encoded.command.inj hencode
  have hop : u ++ o = 0b101#3 := by simpa using (congrArg wordOp hword).symm
  rw [hword, if_pos (.inr (.inr hop))]

end Sys2Proof

namespace Sys2Proof.Machine

/-! ### DEC.RESET and the reserved commands (R170, R187) -/

/-- Settles O36: DEC.RESET builds the unit of the reset state. -/
theorem decResetEffect : Obligations.DecResetEffect :=
  ⟨fun _ => decodeCommand_of_decReset, fun _ => rfl⟩

/-- Settles O44: IllegalCommand is a response alone (R215). -/
theorem reservedCommandsIllegal : Obligations.ReservedCommandsIllegal :=
  ⟨fun _ => ⟨decodeCommand_of_decRsv2, decodeCommand_of_decRsv3⟩, fun _ => ⟨rfl, rfl⟩⟩

/-! ### The rows of the feed table (R176 to R186) -/

theorem isCtrl_of_ne {b : Byte} (hstart : b ≠ startByte) (hescape : b ≠ escapeByte) (hstop : b ≠ stopByte) :
    isCtrl b = false := by
  rw [isCtrl_eq_decide, decide_eq_false_iff_not]
  exact not_or.mpr ⟨hstart, not_or.mpr ⟨hescape, hstop⟩⟩

/-- Settles O37: in Start each row's arm passes its check of DEC.state. -/
theorem feedRowsInStart : Obligations.FeedRowsInStart := by
  refine ⟨⟨rfl, rfl, rfl, fun b hstart hescape hstop => ?_⟩, fun s hs => ?_⟩
  · exact (decodeKey_other (isCtrl_of_ne hstart hescape hstop)).1
  · exact ⟨State.inParserState_of_eq hs, State.inParserState_of_eq hs, State.inParserState_of_eq hs,
      fun _ => State.inParserState_of_eq hs⟩

/-- Settles O38: in Data each row's arm passes its check of DEC.state. -/
theorem feedControlRowsInData : Obligations.FeedControlRowsInData :=
  ⟨⟨rfl, rfl, rfl⟩, fun _ hs => ⟨State.inParserState_of_eq hs, State.inParserState_of_eq hs,
    State.inParserState_of_eq hs⟩⟩

/-- R173: with no room an append is the forced recovery. -/
theorem State.finishDecAppend_of_full {s : State} (v : Byte) (h : s.config.nDec ≤ s.dec.len) :
    s.finishDecAppend (s.dec.logicalAppend s.config.nDec v) .data = s.raiseError .decCapacityExceeded := by
  rw [DecUnit.logicalAppend_of_full h]
  rfl

/-- The two appending rows end the same way: FEED.D.OTHER with its byte, FEED.E.ANY with the complement. -/
theorem exec_appendingRow {s : State} {b v : Byte} {i : Instr}
    (hi : (s.dec.state = .data ∧ i = .feedDOther b ∧ v = b) ∨
      (s.dec.state = .escapedData ∧ i = .feedEAny b ∧ v = ~~~b)) :
    exec i s = .next (s.finishDecAppend (s.dec.logicalAppend s.config.nDec v) .data) := by
  rcases hi with ⟨hs, rfl, rfl⟩ | ⟨hs, rfl, rfl⟩ <;> exact State.inParserState_of_eq hs

/-- Settles O39, by the two sides of the capacity check. -/
theorem feedAppendingRows : Obligations.FeedAppendingRows := by
  refine ⟨fun b => ⟨fun hstart hescape hstop => ?_, decodeKey_escapedData b⟩,
    fun s b v i hi => ⟨fun h => ?_, fun h => ?_⟩⟩
  · exact (decodeKey_other (isCtrl_of_ne hstart hescape hstop)).2
  · obtain ⟨t, ht, hresp, hstate, happ, hframe⟩ := State.finishDecAppend_appended v h
    exact ⟨t, (exec_appendingRow hi).trans (congrArg _ ht), happ, hstate, hresp, hframe⟩
  · rw [exec_appendingRow hi, State.finishDecAppend_of_full v (Nat.le_of_lt_succ h)]
    rfl

/-! ### DEC.FEED (R174) -/

/-- Settles O41: DEC.FEED and the row's instruction match on the same row. -/
theorem decFeedRunsSelectedRow : Obligations.DecFeedRunsSelectedRow :=
  ⟨fun _ => decodeCommand_of_decFeed, fun s b => exec_decFeed_eq_exec_decodeKey b s⟩

/-- Settles O43: the key with state 0b11 has the row FEED.X.RSV, and of the command words only DEC.FEED runs a row. -/
theorem reservedStateFaults : Obligations.ReservedStateFaults := by
  refine ⟨fun b _ => ⟨decodeKey_reserved b, rfl⟩, fun b s hs => execDecFeed_of_reserved hs b, fun w s f h => ?_⟩
  rcases exec_decodeCommand_cases w s with ⟨t, ht⟩ | ⟨hs, hw, -⟩
  · cases h.symm.trans ht
  · exact ⟨hs, hw⟩

/-- R182 without room. -/
theorem execDecFeed_plain_full {s : State} {b : Byte} (hs : s.dec.state = .data) (hb : isCtrl b = false)
    (h : s.config.nDec ≤ s.dec.len) : execDecFeed b s = .next (s.raiseError .decCapacityExceeded) := by
  obtain ⟨hstart, hescape, hstop⟩ := not_isCtrl_ne hb
  rw [execDecFeed_of_data hs, if_neg hstart, if_neg hescape, if_neg hstop, State.finishDecAppend_of_full b h]

/-- R185 without room. -/
theorem execDecFeed_escaped_full {s : State} (e : Byte) (hs : s.dec.state = .escapedData)
    (h : s.config.nDec ≤ s.dec.len) : execDecFeed e s = .next (s.raiseError .decCapacityExceeded) := by
  rw [execDecFeed_of_escapedData hs, State.finishDecAppend_of_full _ h]

/-- In Start every byte but START is ignored (R177 to R179). -/
theorem execDecFeed_ignored {s : State} {b : Byte} (hs : s.dec.state = .start) (hb : b ≠ startByte) :
    execDecFeed b s = .next (s.respond .ok false) :=
  (execDecFeed_of_start hs b).trans (if_neg hb)

/-- Settles O42: DEC.FEED completes, and each line of the state table says with what. -/
theorem decFeedStateTable : Obligations.DecFeedStateTable := by
  intro s b hres
  obtain ⟨t, ht⟩ := execDecFeed_completes hres b
  refine ⟨t, ht, exec_onlyDecChanges (i := .decFeed b) rfl ht, ?_, ?_, ?_, ?_, ?_, ?_, ?_, ?_⟩
  · rintro hs rfl
    cases ht.symm.trans (execDecFeed_of_start hs startByte)
    exact ⟨rfl, rfl⟩
  · intro hs hb
    cases ht.symm.trans (execDecFeed_ignored hs hb)
    exact ⟨rfl, rfl⟩
  · rintro hs rfl
    cases ht.symm.trans (execDecFeed_of_data hs startByte)
    exact ⟨rfl, rfl⟩
  · rintro hs rfl
    cases ht.symm.trans (execDecFeed_of_data hs escapeByte)
    exact ⟨rfl, rfl⟩
  · rintro hs rfl
    cases ht.symm.trans (execDecFeed_of_data hs stopByte)
    exact ⟨rfl, rfl⟩
  · intro hs hb hroom
    obtain ⟨u, hu, hresp, hstate, happ, -⟩ := execDecFeed_plain_appended hs hb hroom
    cases ht.symm.trans hu
    exact ⟨happ, hstate, hresp⟩
  · intro hs hroom
    obtain ⟨u, hu, hresp, hstate, happ, -⟩ := execDecFeed_escaped_appended b hs hroom
    cases ht.symm.trans hu
    exact ⟨happ, hstate, hresp⟩
  · intro hs hfull
    have hcap : execDecFeed b s = .next (s.raiseError .decCapacityExceeded) := by
      rcases hs with ⟨hs, hb⟩ | hs
      · exact execDecFeed_plain_full hs hb (Nat.le_of_lt_succ hfull)
      · exact execDecFeed_escaped_full b hs (Nat.le_of_lt_succ hfull)
    cases ht.symm.trans hcap
    exact ⟨rfl, rfl⟩

/-! ### How DEC.state becomes Data (R184) -/

/-- The case of `dataEnteredOnlyBy` for DEC.FEED. -/
theorem execDecFeed_enters_data {s t : State} {b : Byte} (h : execDecFeed b s = .next t) (ht : t.dec.state = .data)
    (hs : s.dec.state ≠ .data) :
    (s.dec.state = .start ∧ b = startByte ∧ t.dec = { DecUnit.reset with state := .data }) ∨
    s.dec.state = .escapedData := by
  cases hp : s.dec.state with
  | start =>
    by_cases hb : b = startByte
    · subst hb
      cases h.symm.trans (execDecFeed_of_start hp startByte)
      exact .inl ⟨rfl, rfl, rfl⟩
    · cases h.symm.trans (execDecFeed_ignored hp hb)
      exact absurd ht hs
  | data => exact absurd hp hs
  | escapedData => exact .inr rfl
  | reserved => cases h.symm.trans (execDecFeed_of_reserved hp b)

/-- Settles O45, one instruction at a time: no other command takes DEC to Data, and the rows of Data do not run
outside it. -/
theorem dataEnteredOnlyBy : Obligations.DataEnteredOnlyBy := by
  intro i s t h ht hs
  cases i with
  | encNew | encStart | encAdd | encComplete => exact absurd (exec_dec_of_isEnc rfl h ▸ ht) hs
  | decReset => cases h; cases ht
  | decRsv2 | decRsv3 => cases h; exact absurd ht hs
  | decFeed b =>
    rcases execDecFeed_enters_data h ht hs with ⟨hp, rfl, hd⟩ | hp
    · exact .inl ⟨hp, .inr rfl, by rw [hd]; rfl, by rw [hd]; rfl⟩
    · exact .inr ⟨hp, b, .inr rfl⟩
  | feedSStart =>
    obtain ⟨hp, rfl⟩ := State.inParserState_next h
    exact .inl ⟨hp, .inl rfl, rfl, rfl⟩
  | feedSEscape | feedSStop | feedSOther =>
    obtain ⟨-, rfl⟩ := State.inParserState_next h
    exact absurd ht hs
  | feedDStart | feedDEscape | feedDStop | feedDOther => exact absurd (State.inParserState_next h).1 hs
  | feedEAny b => exact .inr ⟨(State.inParserState_next h).1, b, .inl rfl⟩
  | feedXRsv => cases h

/-! ### When a frame is handed over (R189) -/

theorem State.handedOver_ne_none_iff (s : State) : s.handedOver ≠ none ↔ ∃ fv, s.resp = some (frameResponse fv) := by
  unfold State.handedOver
  constructor
  · intro h
    split at h
    · exact ⟨_, ‹_›⟩
    · exact absurd rfl h
  · rintro ⟨fv, hfv⟩
    rw [hfv]
    exact nofun

/-- An append responds OK or CAP. -/
theorem State.finishDecAppend_resp_ne_frame (s : State) (q : Option DecUnit) (p : ParserState) (fv : Bool) :
    (s.finishDecAppend q p).resp ≠ some (frameResponse fv) := by
  cases q <;> exact nofun

/-- DEC.FEED of any byte but STOP, and in any state but Data, responds no FRAME. -/
theorem execDecFeed_frame {s t : State} {b : Byte} {fv : Bool} (h : execDecFeed b s = .next t)
    (hr : t.resp = some (frameResponse fv)) : b = stopByte ∧ s.dec.state = .data := by
  cases hp : s.dec.state with
  | start =>
    rw [execDecFeed_of_start hp] at h
    split_ifs at h <;> cases h <;> cases hr
  | data =>
    refine ⟨?_, rfl⟩
    rw [execDecFeed_of_data hp] at h
    split_ifs at h with hstart hescape hstop <;> cases h
    · cases hr
    · cases hr
    · exact hstop
    · exact absurd hr (s.finishDecAppend_resp_ne_frame _ _ fv)
  | escapedData =>
    cases h.symm.trans (execDecFeed_of_escapedData hp b)
    exact absurd hr (s.finishDecAppend_resp_ne_frame _ _ fv)
  | reserved => cases h.symm.trans (execDecFeed_of_reserved hp b)

/-- Of the command words, DEC.FEED's alone can respond FRAME (R84). -/
theorem decFeed_of_frame_mem_statuses {w : CommandWord} (h : .frame ∈ statuses (decodeCommand w)) :
    ∃ b, decodeCommand w = .decFeed b := by
  unfold decodeCommand at h ⊢
  split_ifs at h ⊢
  -- the sixth line of the operation map is DEC.FEED
  on_goal 6 => exact ⟨_, rfl⟩
  all_goals simp [statuses] at h

theorem exec_decodeCommand_frame {w : CommandWord} {s t : State} {fv : Bool} (h : exec (decodeCommand w) s = .next t)
    (hr : t.resp = some (frameResponse fv)) : w = commandWord 0b1#1 0b01#2 stopByte ∧ s.dec.state = .data := by
  obtain ⟨r, hresp, -, hmem⟩ := exec_respondsAs h
  cases hr.symm.trans hresp
  obtain ⟨b, hw⟩ := decFeed_of_frame_mem_statuses hmem
  rw [hw] at h
  obtain ⟨rfl, hs⟩ := execDecFeed_frame h hr
  exact ⟨eq_feedWord_of_decodeCommand hw, hs⟩

/-- R183: the frame at a STOP is the buffer as it was. -/
theorem handedOver_of_stop {s t : State} (h : exec (decodeCommand (commandWord 0b1#1 0b01#2 stopByte)) s = .next t)
    (hs : s.dec.state = .data) : t.handedOver = some (s.rawBytes, crcZero s.dec.crc) := by
  rw [decodeCommand_feedWord] at h
  cases h.symm.trans (execDecFeed_of_data hs stopByte)
  rfl

/-- Settles O46: one direction from the statuses and the rows of DEC.FEED, the other from FEED.D.STOP's effect. -/
theorem frameExactlyAtStop : Obligations.FrameExactlyAtStop := by
  refine fun w s t h => ⟨⟨fun hframe => ?_, ?_⟩, ?_⟩
  · obtain ⟨fv, hr⟩ := t.handedOver_ne_none_iff.mp hframe
    exact exec_decodeCommand_frame h hr
  · rintro ⟨rfl, hs⟩
    rw [handedOver_of_stop h hs]
    exact nofun
  · rintro rfl hs
    exact handedOver_of_stop h hs

/-! ### Runs that leave DEC as it is (R190, R191) -/

/-- Settles O47, by induction on the bytes: each one is ignored, and DEC is in Start again. -/
theorem frameRetained : Obligations.FrameRetained := by
  intro s bytes hs hb
  induction bytes generalizing s with
  | nil => exact ⟨s, rfl, rfl, rfl, rfl⟩
  | cons b bytes ih =>
    obtain ⟨hne, hrest⟩ := List.ne_and_not_mem_of_not_mem_cons hb
    have hfeed := execDecFeed_ignored (s := s.tick) hs (Ne.symm hne)
    obtain ⟨t, ht, hdec, henc, hconfig⟩ := ih (s.tick.respond .ok false) hs hrest
    exact ⟨t, runWords_feed_cons hfeed rfl ht, hdec, henc, hconfig⟩

/-- Settles O10, by induction on the steps. -/
theorem idleHoldsState : Obligations.IdleHoldsState := by
  intro s n ha hp
  induction n with
  | zero => rfl
  | succ n ih => rw [run_succ_of_next (step_of_idle ha hp), ih]

/-! ### The capacity boundary (R193) -/

/-- In Data with no room, the last wire byte of one more logical byte fails and DEC recovers to Start (R173). -/
theorem runWords_feed_esc_full {s : State} (b : Byte) (hs : s.dec.state = .data) (h : s.config.nDec ≤ s.dec.len) :
    ∃ t, runWords (feedWords (esc b)) s =
        some (List.replicate ((esc b).length - 1) okResponse ++ [capResponse], t) ∧
      t.dec = DecUnit.reset ∧ t.enc = s.enc := by
  rcases esc_cases b with ⟨-, he⟩ | ⟨hb, he⟩ <;> rw [he]
  · have hescape := execDecFeed_escapeByte (s := s.tick) hs
    have hcap := execDecFeed_escaped_full (s := s.tick.afterEscape.tick) (cpl b) rfl h
    exact ⟨_, runWords_feed_cons hescape rfl (runWords_feed_cons hcap rfl rfl), rfl, rfl⟩
  · exact ⟨_, runWords_feed_cons (execDecFeed_plain_full (s := s.tick) hs hb h) rfl rfl, rfl, rfl⟩

/-- START and the wire form of logical bytes that fit leave DEC in Data holding them. -/
theorem runWords_feed_openFrame {s : State} {l : List Byte} (hs : s.dec.state = .start ∨ s.dec.state = .data)
    (h : l.length ≤ s.config.nDec) :
    ∃ t, runWords (feedWords (startByte :: wireOf l)) s =
        some (List.replicate ((wireOf l).length + 1) okResponse, t) ∧
      t.dec.state = .data ∧ t.dec.len = l.length ∧ t.enc = s.enc ∧ t.config = s.config := by
  obtain ⟨a, ha, har, had, hae, hac⟩ := execDecFeed_startByte (s := s.tick) hs
  have hempty : a.dec.len = 0 := by rw [had]; rfl
  have hroom : a.dec.len + l.length ≤ a.config.nDec := by
    rw [hempty, Nat.zero_add, hac]
    exact h
  obtain ⟨t, ht, hts, hta⟩ := runWords_feed_wireOf l (had ▸ rfl) hroom
  exact ⟨t, runWords_feed_cons ha har ht, hts, by rw [hta.len, hempty, Nat.zero_add], hta.enc.trans hae,
    hta.config.trans hac⟩

/-- A frame of one logical byte too many: CAP at its last byte, and its STOP finds DEC in Start. -/
theorem runWords_feed_frameBytes_full {s : State} {l : List Byte} {b : Byte}
    (hs : s.dec.state = .start ∨ s.dec.state = .data) (h : l.length = s.config.nDec) :
    ∃ t, runWords (feedWords (frameBytes (l ++ [b]))) s =
        some (List.replicate (wireOf (l ++ [b])).length okResponse ++ [capResponse, okResponse], t) ∧
      t.dec = DecUnit.reset ∧ t.enc = s.enc := by
  obtain ⟨a, ha, has, hal, hae, hac⟩ := runWords_feed_openFrame hs h.le
  obtain ⟨u, hu, hud, hue⟩ := runWords_feed_esc_full b has (by rw [hal, hac, h])
  have hstop := execDecFeed_ignored (s := u.tick) (b := stopByte) (by rw [State.tick_dec, hud]; rfl) (by decide)
  have hrun := runWords_feed_append ha (runWords_feed_append hu (runWords_feed_cons (bs := []) hstop rfl rfl))
  have hlen : (wireOf (l ++ [b])).length = (wireOf l).length + 1 + ((esc b).length - 1) := by
    have hpos := esc_length_pos b
    rw [wireOf_append, wireOf_cons, wireOf_nil, List.append_nil, List.length_append]
    omega
  refine ⟨u.tick.respond .ok false, ?_, hud, hue.trans hae⟩
  rw [hlen, List.replicate_add, List.append_assoc]
  simpa [frameBytes] using hrun

/-- Settles O49: up to `N_DEC` logical bytes the frame is handed over; of one more, all but the last fit. -/
theorem capacityBoundary : Obligations.CapacityBoundary := by
  refine fun s l hs => ⟨fun h => ?_, fun h => ?_⟩
  · obtain ⟨t, ht, hframe⟩ := runWords_feed_frameBytes hs h
    exact ⟨t, ht, hframe.raw, hframe.len, hframe.state, hframe.enc⟩
  · obtain ⟨l, b, rfl⟩ := (List.eq_nil_or_concat' l).resolve_left (by rintro rfl; cases h)
    exact runWords_feed_frameBytes_full hs (by simpa using h.symm)

/-! ### The host's views of a frame (R194) -/

/-- Settles O52: the command stands first and the two CRC bytes last. -/
theorem frameViews : Obligations.FrameViews := by
  intro c p
  have hlen : (frameLogical c p).length = (c :: p).length + 2 := List.length_append
  refine ⟨?_, ?_, ?_⟩
  · rw [frameCommand, hlen, if_pos (by simp)]
    rfl
  · rw [framePayload, hlen, Nat.add_sub_cancel, frameLogical, List.take_left]
    rfl
  · rw [frameCrcBytes, hlen, Nat.add_sub_cancel, frameLogical, List.drop_left]
    rfl

end Sys2Proof.Machine

/-! Proofs for spec/60_exceptions.md: when CapacityExceeded is the response, in ENC by its moves and in DEC by its
appending rows. -/

namespace Sys2Proof.Machine

/-! ### CapacityExceeded in ENC (R210, R211) -/

/-- An ENC command that responds CAP leaves ENC as it is, and is an append or an ENC.COMPLETE without room. -/
theorem EncUnit.Moves.of_cap {nEnc : Nat} {e e' : EncUnit} {i : Instr} (h : e.Moves nEnc i (some capResponse) e')
    (hi : i.isEnc = true) :
    e' = e ∧ ((∃ b, (i = .encStart b ∨ i = .encAdd b) ∧ nEnc < e.len + (esc b).length) ∨
      (i = .encComplete ∧ nEnc < e.len + e.completeNeed)) := by
  cases h with
  | appendFull b hb full => exact ⟨rfl, .inl ⟨b, hb, full⟩⟩
  | completeFull full => exact ⟨rfl, .inr ⟨rfl, full⟩⟩
  | other _ hother => cases hi.symm.trans hother

theorem exec_enc_of_cap {i : Instr} {s t : State} (hi : i.isEnc = true) (h : exec i s = .next t)
    (hr : t.resp = some capResponse) :
    t.enc = s.enc ∧ ((∃ b, (i = .encStart b ∨ i = .encAdd b) ∧ s.config.nEnc < s.enc.len + (esc b).length) ∨
      (i = .encComplete ∧ s.config.nEnc < s.enc.len + s.enc.completeNeed)) := by
  have hmoves := exec_enc_moves h
  rw [hr] at hmoves
  exact hmoves.of_cap hi

/-- Settles O27: an ENC command writes ENC and the response alone, and with CAP it leaves ENC as it is. -/
theorem encCapacityChangesNothing : Obligations.EncCapacityChangesNothing := by
  intro w s t hw h hr
  have hi : (decode (.command w)).isEnc = true := (isEncWord_eq_isEnc_decodeCommand w).symm.trans hw
  obtain ⟨henc, -⟩ := exec_enc_of_cap hi h hr
  have hframe := Host.Outcome.next.inj (h.symm.trans (exec_enc_local hi h rfl rfl))
  rwa [henc, hr] at hframe

/-! ### CapacityExceeded in DEC (R210) -/

/-- The append rows of DEC.FEED, each run by itself or selected by DEC.FEED in the parser state `p`. -/
def AppendsIn (p : ParserState) (i : Instr) (b : Byte) : Prop :=
  i = .feedDOther b ∨ (i = .decFeed b ∧ p = .data ∧ isCtrl b = false) ∨
    i = .feedEAny b ∨ (i = .decFeed b ∧ p = .escapedData)

/-- All append rows end in the one append of R172, whose room decides the response. -/
theorem exec_resp_of_appendsIn {i : Instr} {s t : State} {b : Byte} (h : exec i s = .next t)
    (ha : AppendsIn s.dec.state i b) :
    t.resp = some (if s.config.nDec ≤ s.dec.len then capResponse else okResponse) := by
  have hresp (v : Byte) := (s.finishDecAppend_resp_state v).1
  rcases ha with rfl | ⟨rfl, hs, hb⟩ | rfl | ⟨rfl, hs⟩
  · obtain ⟨-, rfl⟩ := State.inParserState_next h
    exact hresp b
  · obtain ⟨hstart, hescape, hstop⟩ := not_isCtrl_ne hb
    have hfeed := execDecFeed_of_data hs b
    rw [if_neg hstart, if_neg hescape, if_neg hstop] at hfeed
    cases h.symm.trans hfeed
    exact hresp b
  · obtain ⟨-, rfl⟩ := State.inParserState_next h
    exact hresp (unesc b)
  · cases h.symm.trans (execDecFeed_of_escapedData hs b)
    exact hresp (unesc b)

/-- DEC.FEED responds CAP only where it selects an append row. -/
theorem execDecFeed_cap {s t : State} {b : Byte} (h : execDecFeed b s = .next t) (hr : t.resp = some capResponse) :
    AppendsIn s.dec.state (.decFeed b) b := by
  cases hp : s.dec.state with
  | start =>
    rw [execDecFeed_of_start hp] at h
    split_ifs at h <;> cases h <;> cases hr
  | data =>
    rw [execDecFeed_of_data hp] at h
    split_ifs at h with hstart hescape hstop
    iterate 3 (cases h; cases hr)
    exact .inr (.inl ⟨rfl, rfl, isCtrl_of_ne hstart hescape hstop⟩)
  | escapedData => exact .inr (.inr (.inr ⟨rfl, rfl⟩))
  | reserved => cases h.symm.trans (execDecFeed_of_reserved hp b)

/-- Outside ENC only an append row responds CAP: the other rows and commands do not have that status. -/
theorem exec_appendsIn_of_cap {i : Instr} {s t : State} (hi : i.isEnc = false) (h : exec i s = .next t)
    (hr : t.resp = some capResponse) : ∃ b, AppendsIn s.dec.state i b := by
  obtain ⟨r, hresp, -, hmem⟩ := exec_respondsAs h
  cases hr.symm.trans hresp
  cases i with
  | decFeed b => exact ⟨b, execDecFeed_cap h hr⟩
  | feedDOther b => exact ⟨b, .inl rfl⟩
  | feedEAny b => exact ⟨b, .inr (.inr (.inl rfl))⟩
  | encNew | encStart | encAdd | encComplete => cases hi
  | _ => simp [statuses] at hmem

/-! ### CapacityExceeded, exactly (R210) -/

/-- Settles O26: from CAP to the listed cases by the unit of the instruction, and back by what each listed case
does. -/
theorem capacityExceededExactly : Obligations.CapacityExceededExactly := by
  intro i s t h hlen
  have hneed := s.enc.len_add_completeNeed
  constructor
  · intro hr
    cases hi : i.isEnc with
    | true =>
      obtain ⟨-, happend | ⟨rfl, hfull⟩⟩ := exec_enc_of_cap hi h hr
      · exact .inl happend
      · exact .inr (.inl ⟨rfl, hfull.trans_eq hneed⟩)
    | false =>
      obtain ⟨b, ha⟩ := exec_appendsIn_of_cap hi h hr
      have hresp := (exec_resp_of_appendsIn h ha).symm.trans hr
      split_ifs at hresp with hfull
      · exact .inr (.inr ⟨b, ha, hlen.antisymm hfull⟩)
      · cases hresp
  · rintro (⟨b, hb, hfull⟩ | ⟨rfl, hfull⟩ | ⟨b, ha, hfull⟩)
    · cases h.symm.trans (exec_append_of_full hb hfull)
      rfl
    · cases h.symm.trans (exec_encComplete_of_full (hfull.trans_eq hneed.symm))
      rfl
    · rw [exec_resp_of_appendsIn h ha, if_pos hfull.ge]

end Sys2Proof.Machine

/-! Proofs for spec/70_reset_and_hazards.md: the step that a queued reset event makes. -/

namespace Sys2Proof.Machine

/-! ### The reset event (R240, R241) -/

/-- The whole next state: the event leaves the queue, the transaction counter moves, and both units are reset. -/
theorem step_of_queued_reset {s : State} {rest : List HostEvent} (ha : s.config.admitted = true)
    (hp : s.pending = .reset :: rest) : step s = .next { s with pending := rest }.tick.resetEvent :=
  step_of_pending ha hp

/-- Settles O2, from the whole next state: neither taking the event off the queue nor the counter touches a unit or a
build parameter, and the units' reset states are those of R40 whatever the parameters. -/
theorem hostResetEvent : Obligations.HostResetEvent := by
  intro s rest ha hp
  refine ⟨_, step_of_queued_reset ha hp, State.resetEvent_enc _, State.resetEvent_dec _, ?hconfig,
    State.resetEvent_resp _, ?hpending⟩
  case hconfig => rw [State.resetEvent_config, State.tick_config]
  case hpending => rw [State.resetEvent_pending, State.tick_pending]

end Sys2Proof.Machine
